-- ==== Sys2Proof/Word.lean ====
section
/-! DEFINITION. The word types of the CHIP-8 core (00_scope.md R3, R7; 30_encoding.md R61).
Every quantity is unsigned; the hardware has no signed quantity and no sign extension. -/

namespace Sys2Proof

/-- A byte: a general register, a timer, a byte of memory, the immediate `NN`. -/
abbrev Byte := BitVec 8

/-- A 16-bit word: `I`, `pc`, a stack entry, an instruction word `op`. -/
abbrev Word := BitVec 16

/-- The 12-bit address immediate `NNN` (R61). -/
abbrev Addr := BitVec 12

/-- A 4-bit field: the row count `N` of DXYN, the top nibble `T` (R61). -/
abbrev Nibble := BitVec 4

/-- The number of a general register, 0 to 15 (R10); the fields `X` and `Y`. -/
abbrev Reg := Fin 16

/-- The number of a key, 0x0 to 0xF (R18). -/
abbrev Key := Fin 16

/-- The number of VF, the register that doubles as the flag (R11). -/
abbrev vf : Reg := 15

end Sys2Proof
end

