-- ==== Sys2Proof/Syntax.lean ====
section
/-! DEFINITION. The 34 instructions of the opcode map (30_encoding.md R69), one constructor per row of
spec/opcode_table.json, in the table's order. The operand types are exactly the fields of R61, so every term of
`Instr` is an instruction of the hardware (30_encoding.md R62). -/

namespace Sys2Proof

/-- The instruction set. Each docstring gives the normative pattern (R72) and the rule. -/
inductive Instr where
  /-- 00E0, clear display (R150). -/
  | cls
  /-- 00EE, return (R100). -/
  | ret
  /-- 1NNN, jump (R101). -/
  | jp (nnn : Addr)
  /-- 2NNN, call (R102). -/
  | call (nnn : Addr)
  /-- 3XNN, skip if equal to immediate (R110). -/
  | seByte (x : Reg) (nn : Byte)
  /-- 4XNN, skip if not equal to immediate (R111). -/
  | sneByte (x : Reg) (nn : Byte)
  /-- 5XY0, skip if registers equal (R112). -/
  | seReg (x y : Reg)
  /-- 6XNN, load immediate (R120). -/
  | ldByte (x : Reg) (nn : Byte)
  /-- 7XNN, add immediate (R121). -/
  | addByte (x : Reg) (nn : Byte)
  /-- 8XY0, assign (R122). -/
  | ldReg (x y : Reg)
  /-- 8XY1, bitwise OR (R123). -/
  | orReg (x y : Reg)
  /-- 8XY2, bitwise AND (R124). -/
  | andReg (x y : Reg)
  /-- 8XY3, bitwise exclusive OR (R125). -/
  | xorReg (x y : Reg)
  /-- 8XY4, add with carry into VF (R126). -/
  | addReg (x y : Reg)
  /-- 8XY5, subtract with not-borrow into VF (R127). -/
  | subReg (x y : Reg)
  /-- 8XY6, shift right, bit 0 into VF; `Y` is decoded and ignored (R128). -/
  | shrReg (x y : Reg)
  /-- 8XY7, subtract reversed with not-borrow into VF (R129). -/
  | subnReg (x y : Reg)
  /-- 8XYE, shift left, bit 7 into VF; `Y` is decoded and ignored (R130). -/
  | shlReg (x y : Reg)
  /-- 9XY0, skip if registers differ (R113). -/
  | sneReg (x y : Reg)
  /-- ANNN, load index (R140). -/
  | ldIndex (nnn : Addr)
  /-- BNNN, jump to NNN + V[0] (R103). -/
  | jpV0 (nnn : Addr)
  /-- CXNN, masked random byte (R133). -/
  | rnd (x : Reg) (nn : Byte)
  /-- DXYN, draw sprite (R151). -/
  | drw (x y : Reg) (n : Nibble)
  /-- EX9E, skip if key pressed (R114). -/
  | skp (x : Reg)
  /-- EXA1, skip if key not pressed (R115). -/
  | sknp (x : Reg)
  /-- FX07, read delay timer (R160). -/
  | ldRegDelay (x : Reg)
  /-- FX0A, wait for a key (R163). -/
  | ldRegKey (x : Reg)
  /-- FX15, set delay timer (R161). -/
  | ldDelayReg (x : Reg)
  /-- FX18, set sound timer (R162). -/
  | ldSoundReg (x : Reg)
  /-- FX1E, add register to index (R141). -/
  | addIndex (x : Reg)
  /-- FX29, point at font glyph (R142). -/
  | ldGlyph (x : Reg)
  /-- FX33, store binary-coded decimal (R143). -/
  | ldBcd (x : Reg)
  /-- FX55, store registers V[0] to V[X] (R144). -/
  | storeRegs (x : Reg)
  /-- FX65, load registers V[0] to V[X] (R145). -/
  | loadRegs (x : Reg)
deriving DecidableEq, Repr

end Sys2Proof
end

