-- ==== Sys2Proof/WellFormed.lean ====
section
/-! DEFINITION. What counts as a well-formed instruction word, instruction and program.
An `Instr` is well-formed by construction: its operand types are exactly the fields of 30_encoding.md R61, so no term
of `Instr` has an operand out of range, and no check over `Instr` could ever refuse. What can be ill-formed is a
16-bit word (it may match no row of the opcode map, R69, R70) and a program (it may be too long for the loader, R203);
those are the checks of this file. The opcode map is written here a second time as data, from R69's mask and match
columns, independently of the decoder of Decode.lean, which follows the dispatch of R63 to R68. -/

namespace Sys2Proof

/-- One row of the opcode map of R69: its number in the table, its mask and its match value. -/
structure OpcodeRow where
  number : Nat
  mask : Word
  value : Word
deriving DecidableEq, Repr

/-- A word is the row's instruction if and only if `op & mask = match` (R69). -/
def OpcodeRow.accepts (row : OpcodeRow) (op : Word) : Bool := op &&& row.mask == row.value

/-- The complete opcode map, rows 1 to 34 of R69. -/
def opcodeMap : List OpcodeRow :=
  [
    ⟨1, 0xFFFF, 0x00E0⟩,
    ⟨2, 0xFFFF, 0x00EE⟩,
    ⟨3, 0xF000, 0x1000⟩,
    ⟨4, 0xF000, 0x2000⟩,
    ⟨5, 0xF000, 0x3000⟩,
    ⟨6, 0xF000, 0x4000⟩,
    ⟨7, 0xF00F, 0x5000⟩,
    ⟨8, 0xF000, 0x6000⟩,
    ⟨9, 0xF000, 0x7000⟩,
    ⟨10, 0xF00F, 0x8000⟩,
    ⟨11, 0xF00F, 0x8001⟩,
    ⟨12, 0xF00F, 0x8002⟩]
  ++
  [
    ⟨13, 0xF00F, 0x8003⟩,
    ⟨14, 0xF00F, 0x8004⟩,
    ⟨15, 0xF00F, 0x8005⟩,
    ⟨16, 0xF00F, 0x8006⟩,
    ⟨17, 0xF00F, 0x8007⟩,
    ⟨18, 0xF00F, 0x800E⟩,
    ⟨19, 0xF00F, 0x9000⟩,
    ⟨20, 0xF000, 0xA000⟩,
    ⟨21, 0xF000, 0xB000⟩,
    ⟨22, 0xF000, 0xC000⟩,
    ⟨23, 0xF000, 0xD000⟩,
    ⟨24, 0xF0FF, 0xE09E⟩]
  ++
  [
    ⟨25, 0xF0FF, 0xE0A1⟩,
    ⟨26, 0xF0FF, 0xF007⟩,
    ⟨27, 0xF0FF, 0xF00A⟩,
    ⟨28, 0xF0FF, 0xF015⟩,
    ⟨29, 0xF0FF, 0xF018⟩,
    ⟨30, 0xF0FF, 0xF01E⟩,
    ⟨31, 0xF0FF, 0xF029⟩,
    ⟨32, 0xF0FF, 0xF033⟩,
    ⟨33, 0xF0FF, 0xF055⟩,
    ⟨34, 0xF0FF, 0xF065⟩]

/-- A word is well-formed when some row of the opcode map accepts it; every other word is an unknown opcode (R70). -/
def wordWellFormed (op : Word) : Bool := opcodeMap.any fun row => row.accepts op

/-- The row of R69 an instruction belongs to, by its number. -/
def Instr.rowNumber : Instr → Nat
  | .cls => 1
  | .ret => 2
  | .jp _ => 3
  | .call _ => 4
  | .seByte _ _ => 5
  | .sneByte _ _ => 6
  | .seReg _ _ => 7
  | .ldByte _ _ => 8
  | .addByte _ _ => 9
  | .ldReg _ _ => 10
  | .orReg _ _ => 11
  | .andReg _ _ => 12
  | .xorReg _ _ => 13
  | .addReg _ _ => 14
  | .subReg _ _ => 15
  | .shrReg _ _ => 16
  | .subnReg _ _ => 17
  | .shlReg _ _ => 18
  | .sneReg _ _ => 19
  | .ldIndex _ => 20
  | .jpV0 _ => 21
  | .rnd _ _ => 22
  | .drw _ _ _ => 23
  | .skp _ => 24
  | .sknp _ => 25
  | .ldRegDelay _ => 26
  | .ldRegKey _ => 27
  | .ldDelayReg _ => 28
  | .ldSoundReg _ => 29
  | .addIndex _ => 30
  | .ldGlyph _ => 31
  | .ldBcd _ => 32
  | .storeRegs _ => 33
  | .loadRegs _ => 34

/-- A program is well-formed when the loader accepts it: at most 3584 bytes, any content (R203, R205). -/
def programWellFormed (bytes : List Byte) : Bool := decide (bytes.length ≤ 3584)

end Sys2Proof
end

