-- ==== Sys2Proof/Decode.lean ====
section
/-! DEFINITION. The decoder and, after it, the encoder (30_encoding.md R60 to R71; 40_cycle_engine.md R82).
Decoding is total: a word outside the opcode map is rejected by name, with the word. It reads no state. -/

namespace Sys2Proof

/-- Why the decoder gives no instruction. -/
inductive DecodeError where
  /-- The word matches no row of the opcode map (R70); the machine skips it (40_cycle_engine.md R84). -/
  | unknownOpcode (op : Word)
  /-- Fewer than the two bytes every instruction has (R60). The machine's own fetch never gives such a list: it reads
  two bytes or faults (40_cycle_engine.md R81). -/
  | truncated
deriving DecidableEq, Repr

/-- The instruction word from its two bytes, the byte at the lower address first: big-endian (20_memory.md R44). -/
def wordOfBytes (hi lo : Byte) : Word := BitVec.ofNat 16 (hi.toNat * 256 + lo.toNat)

/-- The byte at the lower address of a word laid out in memory (20_memory.md R44). -/
def highByte (op : Word) : Byte := op.extractLsb' 8 8

/-- The byte at the higher address of a word laid out in memory (20_memory.md R44). -/
def lowByte (op : Word) : Byte := op.extractLsb' 0 8

/-- `T = op[15:12]`, the family selector (R61). -/
def fieldT (op : Word) : Nibble := op.extractLsb' 12 4

/-- `X = op[11:8]` (R61). -/
def fieldX (op : Word) : Reg := Fin.ofNat 16 (op.extractLsb' 8 4).toNat

/-- `Y = op[7:4]` (R61). -/
def fieldY (op : Word) : Reg := Fin.ofNat 16 (op.extractLsb' 4 4).toNat

/-- `N = op[3:0]` (R61). -/
def fieldN (op : Word) : Nibble := op.extractLsb' 0 4

/-- `NN = op[7:0]` (R61). -/
def fieldNN (op : Word) : Byte := op.extractLsb' 0 8

/-- `NNN = op[11:0]` (R61). -/
def fieldNNN (op : Word) : Addr := op.extractLsb' 0 12

/-- The rejection of a word no rule accepts (R70). -/
def unknown (op : Word) : Except DecodeError Instr := .error (.unknownOpcode op)

/-- Family 0: all 16 bits compared (R64). -/
def decodeFamily0 (op : Word) : Except DecodeError Instr :=
  if op = 0x00E0 then .ok .cls else if op = 0x00EE then .ok .ret else unknown op

/-- Family 8, by `N` (R66). -/
def decodeFamily8 (op : Word) : Except DecodeError Instr :=
  match (fieldN op).toNat with
  | 0x0 => .ok (.ldReg (fieldX op) (fieldY op))
  | 0x1 => .ok (.orReg (fieldX op) (fieldY op))
  | 0x2 => .ok (.andReg (fieldX op) (fieldY op))
  | 0x3 => .ok (.xorReg (fieldX op) (fieldY op))
  | 0x4 => .ok (.addReg (fieldX op) (fieldY op))
  | 0x5 => .ok (.subReg (fieldX op) (fieldY op))
  | 0x6 => .ok (.shrReg (fieldX op) (fieldY op))
  | 0x7 => .ok (.subnReg (fieldX op) (fieldY op))
  | 0xE => .ok (.shlReg (fieldX op) (fieldY op))
  | _ => unknown op

/-- Family E, by the low byte (R67). -/
def decodeFamilyE (op : Word) : Except DecodeError Instr :=
  match (fieldNN op).toNat with
  | 0x9E => .ok (.skp (fieldX op))
  | 0xA1 => .ok (.sknp (fieldX op))
  | _ => unknown op

/-- Family F, by the low byte (R68). -/
def decodeFamilyF (op : Word) : Except DecodeError Instr :=
  match (fieldNN op).toNat with
  | 0x07 => .ok (.ldRegDelay (fieldX op))
  | 0x0A => .ok (.ldRegKey (fieldX op))
  | 0x15 => .ok (.ldDelayReg (fieldX op))
  | 0x18 => .ok (.ldSoundReg (fieldX op))
  | 0x1E => .ok (.addIndex (fieldX op))
  | 0x29 => .ok (.ldGlyph (fieldX op))
  | 0x33 => .ok (.ldBcd (fieldX op))
  | 0x55 => .ok (.storeRegs (fieldX op))
  | 0x65 => .ok (.loadRegs (fieldX op))
  | _ => unknown op

/-- The decoder: dispatch on `T`, then the family's own check (R63 to R68). The last arm is never taken: `T` has
four bits. -/
def decodeWord (op : Word) : Except DecodeError Instr :=
  match (fieldT op).toNat with
  | 0x0 => decodeFamily0 op
  | 0x1 => .ok (.jp (fieldNNN op))
  | 0x2 => .ok (.call (fieldNNN op))
  | 0x3 => .ok (.seByte (fieldX op) (fieldNN op))
  | 0x4 => .ok (.sneByte (fieldX op) (fieldNN op))
  | 0x5 => if fieldN op = 0 then .ok (.seReg (fieldX op) (fieldY op)) else unknown op
  | 0x6 => .ok (.ldByte (fieldX op) (fieldNN op))
  | 0x7 => .ok (.addByte (fieldX op) (fieldNN op))
  | 0x8 => decodeFamily8 op
  | 0x9 => if fieldN op = 0 then .ok (.sneReg (fieldX op) (fieldY op)) else unknown op
  | 0xA => .ok (.ldIndex (fieldNNN op))
  | 0xB => .ok (.jpV0 (fieldNNN op))
  | 0xC => .ok (.rnd (fieldX op) (fieldNN op))
  | 0xD => .ok (.drw (fieldX op) (fieldY op) (fieldN op))
  | 0xE => decodeFamilyE op
  | 0xF => decodeFamilyF op
  | _ => unknown op

/-- The decoder on bytes as they lie in memory: one instruction is exactly two bytes (R60), and the rest of the list
is given back. -/
def decode : List Byte → Except DecodeError (Instr × List Byte)
  | hi :: lo :: rest =>
    match decodeWord (wordOfBytes hi lo) with
    | .ok i => .ok (i, rest)
    | .error e => .error e
  | _ => .error .truncated

/-- A word of format NNN (R61): the family's fixed bits and the address. -/
def encodeNNN (base : Nat) (nnn : Addr) : Word := BitVec.ofNat 16 (base + nnn.toNat)

/-- A word of format XNN (R61). -/
def encodeXNN (base : Nat) (x : Reg) (nn : Byte) : Word := BitVec.ofNat 16 (base + x.val * 0x100 + nn.toNat)

/-- A word of format XYN (R61); `n` is `N` or the fixed sub-opcode. -/
def encodeXYN (base : Nat) (x y : Reg) (n : Nat) : Word := BitVec.ofNat 16 (base + x.val * 0x100 + y.val * 0x10 + n)

/-- A word of format XKK (R61): `base` holds the family and the fixed low byte. -/
def encodeXKK (base : Nat) (x : Reg) : Word := BitVec.ofNat 16 (base + x.val * 0x100)

/-- The encoder: the word of an instruction, from the match column and the formats of R61 and R69. -/
def encode : Instr → Word
  | .cls => 0x00E0
  | .ret => 0x00EE
  | .jp nnn => encodeNNN 0x1000 nnn
  | .call nnn => encodeNNN 0x2000 nnn
  | .seByte x nn => encodeXNN 0x3000 x nn
  | .sneByte x nn => encodeXNN 0x4000 x nn
  | .seReg x y => encodeXYN 0x5000 x y 0x0
  | .ldByte x nn => encodeXNN 0x6000 x nn
  | .addByte x nn => encodeXNN 0x7000 x nn
  | .ldReg x y => encodeXYN 0x8000 x y 0x0
  | .orReg x y => encodeXYN 0x8000 x y 0x1
  | .andReg x y => encodeXYN 0x8000 x y 0x2
  | .xorReg x y => encodeXYN 0x8000 x y 0x3
  | .addReg x y => encodeXYN 0x8000 x y 0x4
  | .subReg x y => encodeXYN 0x8000 x y 0x5
  | .shrReg x y => encodeXYN 0x8000 x y 0x6
  | .subnReg x y => encodeXYN 0x8000 x y 0x7
  | .shlReg x y => encodeXYN 0x8000 x y 0xE
  | .sneReg x y => encodeXYN 0x9000 x y 0x0
  | .ldIndex nnn => encodeNNN 0xA000 nnn
  | .jpV0 nnn => encodeNNN 0xB000 nnn
  | .rnd x nn => encodeXNN 0xC000 x nn
  | .drw x y n => encodeXYN 0xD000 x y n.toNat
  | .skp x => encodeXKK 0xE09E x
  | .sknp x => encodeXKK 0xE0A1 x
  | .ldRegDelay x => encodeXKK 0xF007 x
  | .ldRegKey x => encodeXKK 0xF00A x
  | .ldDelayReg x => encodeXKK 0xF015 x
  | .ldSoundReg x => encodeXKK 0xF018 x
  | .addIndex x => encodeXKK 0xF01E x
  | .ldGlyph x => encodeXKK 0xF029 x
  | .ldBcd x => encodeXKK 0xF033 x
  | .storeRegs x => encodeXKK 0xF055 x
  | .loadRegs x => encodeXKK 0xF065 x

/-- The two bytes of an instruction as memory holds them (20_memory.md R44). -/
def encodeBytes (i : Instr) : List Byte := [highByte (encode i), lowByte (encode i)]

/-- The word of an opcode-table row: the `nbits` low bits of `w`, zeros above (R60: every instruction is 16 bits). -/
def tableWord (nbits w : Nat) : Word := BitVec.ofNat 16 (w % 2 ^ nbits)

/-- What the decoder reads from an opcode-table word laid out in memory. -/
def decodeTableWord (nbits w : Nat) : Option Instr :=
  match decode [highByte (tableWord nbits w), lowByte (tableWord nbits w)] with
  | .ok (i, _) => some i
  | .error _ => none

end Sys2Proof
end

