-- ==== Sys2Proof/Config.lean ====
section
/-! DEFINITION. What the implementation fixes and what it leaves free (00_scope.md R4).
The other parameters of R4 (SHIFT_SRC, DISPLAY_EDGE, FX1E_SETS_VF, KEY_WAIT and the rest) have one value on this
hardware and are modelled as that behaviour, where it takes effect. -/

namespace Sys2Proof.Config

/-- `FONT[0..79]` (10_state.md R22, 00_scope.md R4): the 80 bytes reset copies to 0x000 to 0x04F.
PRESUMED, unsafe (assumption 2): the spec supplies the bytes from general knowledge. -/
def font : List Byte := Machine.fontTable

/-- `RESET_DRAW_FLAG` (00_scope.md R4, 10_state.md R26): 1 on this hardware, by the spec's decision D14 (assumption 3). -/
def resetDrawFlag : Bool := true

/-- `random_byte()` (10_state.md R23, 43_load_and_alu.md R133): the n-th byte drawn since the reset that was given
this seed. It has no body: no law relates one draw to another or to the seed (decision D13), so a statement about it
holds for every sequence of draws. Safe (assumption 1). -/
opaque randomByte (seed draws : Nat) : Byte

end Sys2Proof.Config
end

