-- ==== Sys2Proof/Machine/State.lean ====
section
/-! DEFINITION. The machine state (10_state.md R10 to R24), its reset value (R26), and the reasons a step stops.
R24: "The list of source §3 is the whole machine state, plus the random source of rule R23." -/

namespace Sys2Proof.Machine

/-- The kind of access a memory fault names (60_exceptions.md R170, R171). -/
inductive AccessKind where
  /-- Instruction fetch with `pc` above 0x0FFE. -/
  | fetch
  /-- A data read above 0xFFF (DXYN, FX65). -/
  | read
  /-- A data write above 0xFFF (FX33, FX55). -/
  | write
  /-- A data write below 0x200 (FX33, FX55). -/
  | protect
deriving DecidableEq, Repr

/-- The faults of 60_exceptions.md R171. Each is hard and precise (R172): the faulting cycle changes no state, and it
recurs until reset (R173). Each is safe: the machine stops where a build with the other policy of decision D2 would
run on. -/
inductive Fault where
  /-- 2NNN with `sp` = 16 (R102). Safe. -/
  | stackOverflow
  /-- 00EE with `sp` = 0 (R100). Safe. -/
  | stackUnderflow
  /-- Fetch (R81), DXYN (R151), FX33 (R143), FX55 (R144), FX65 (R145) outside the addresses R47 and R48 allow; `addr` is
  the address R171 records. Safe. -/
  | memoryAddressOutOfRange (kind : AccessKind) (addr : Nat)
  /-- EX9E (R114), EXA1 (R115) with `V[X]` above 15; `v` is the index. Safe. -/
  | keyIndexOutOfRange (v : Byte)
deriving DecidableEq, Repr

/-- Why the model gives no meaning. -/
inductive Refusal where
  /-- Raised by an arm of `exec` for an instruction without a meaning. Safe. No arm raises it: all 34 have one. -/
  | notModelled (mnemonic : String)
  /-- Raised by `hostMove`, never by `step`: a host operation other than reset on a machine that no reset has
  produced (10_state.md R27, 70_reset_and_hazards.md R207, decision D23). Safe. -/
  | beforeFirstReset
deriving DecidableEq, Repr

/-- The memory (10_state.md R21), as the cells that differ from their reset contents, addresses rising.
`Memory.wf` in Machine/Memory.lean says the form. -/
abbrev Memory := List Host.Cell

/-- The framebuffer (10_state.md R19): 32 rows of 64 one-bit pixels, row 0 at the top, column 0 at the left. -/
abbrev Display := Vector (Vector Bool 64) 32

/-- The random source `rng` (10_state.md R23), opaque in the spec. The model's own form (assumption 1): the seed the last
reset was given and how many bytes have been drawn since; `Config.randomByte` of the two is the next draw. -/
structure Rng where
  seed : Nat
  draws : Nat
deriving DecidableEq, Repr

/-- The whole machine state. -/
structure State where
  /-- `V[0]` to `V[15]`; `V[15]` is VF (R10, R11). -/
  v : Vector Byte 16
  /-- `I`, all 16 bits stored (R12). -/
  index : Word
  /-- `pc`, the address of the instruction to be fetched (R13). -/
  pc : Word
  /-- `sp`, the count of stack entries in use, 0 to 16 (R15). -/
  sp : Fin 17
  /-- `stack[0]` to `stack[15]`, a register file of its own (R14). -/
  stack : Vector Word 16
  /-- `delay_timer`, `dt` (R16). -/
  delayTimer : Byte
  /-- `sound_timer`, `st` (R17). -/
  soundTimer : Byte
  /-- `memory`, 4096 bytes (R21). -/
  memory : Memory
  /-- `keyboard`, `key[0]` to `key[15]`, true meaning pressed (R18). -/
  keyboard : Vector Bool 16
  /-- `display`, 2048 pixels (R19). -/
  display : Display
  /-- `draw_flag` (R20). -/
  drawFlag : Bool
  /-- `rng` (R23). -/
  rng : Rng
deriving DecidableEq, Repr

/-- The state after a reset that the entropy input gave this seed (R26, 70_reset_and_hazards.md R200). -/
def State.resetWith (seed : Nat) : State where
  v := Vector.replicate 16 0
  index := 0
  pc := 0x200
  sp := 0
  stack := Vector.replicate 16 0
  delayTimer := 0
  soundTimer := 0
  memory := []
  keyboard := Vector.replicate 16 false
  display := Vector.replicate 32 (Vector.replicate 64 false)
  drawFlag := Config.resetDrawFlag
  rng := ⟨seed, 0⟩

/-- The machine right after reset (R26). DESIGN CHOICE: seed 0 stands for "any seed" (assumption 1). -/
def State.reset : State := State.resetWith 0

end Sys2Proof.Machine
end

