-- ==== Sys2Proof/Machine/Memory.lean ====
section
/-! DEFINITION. The 4096 bytes of memory (10_state.md R21, 20_memory.md R40 to R49): one byte read, one byte written,
and the canonical form of the list that holds them. Legality of an access is decided in Machine/Ops.lean. -/

namespace Sys2Proof.Machine

/-- What an unlisted address reads as: its reset contents (10_state.md R26), the font at 0x000 to 0x04F and zero
above. -/
def resetByte (a : Nat) : Byte := Config.font.getD a 0

/-- One byte of memory. -/
def memRead : Memory → Nat → Byte
  | [], a => resetByte a
  | (b, v) :: m, a => if b = a then v else memRead m a

/-- The list with the cell (`a`, `v`) in its place, replacing a cell at `a`. -/
def memInsert : Memory → Nat → Byte → Memory
  | [], a, v => [(a, v)]
  | (b, w) :: m, a, v =>
    if a < b then (a, v) :: (b, w) :: m else if a = b then (a, v) :: m else (b, w) :: memInsert m a v

/-- The list without cells at `a`. -/
def memErase (m : Memory) (a : Nat) : Memory := m.filter fun cell => cell.1 != a

/-- Write one byte; writing the reset contents removes the cell, so that equal memories are equal lists. -/
def memWrite (m : Memory) (a : Nat) (v : Byte) : Memory :=
  if v = resetByte a then memErase m a else memInsert m a v

/-- Write bytes in ascending address order from `a` (20_memory.md R45). -/
def memWriteBytes : Memory → Nat → List Byte → Memory
  | m, _, [] => m
  | m, a, v :: vs => memWriteBytes (memWrite m a v) (a + 1) vs

/-- The canonical form: addresses strictly rising, and no cell equal to what an unlisted address reads as. -/
abbrev Memory.wf (m : Memory) : Prop :=
  m.Pairwise (fun c d => c.1 < d.1) ∧ ∀ cell ∈ m, cell.2 ≠ resetByte cell.1

/-- Only addresses an instruction or the loader may write are listed (20_memory.md R41): bytes below 0x200 hold their
reset contents and no address above 0xFFF exists. -/
abbrev Memory.inProgramRegion (m : Memory) : Prop := ∀ cell ∈ m, 0x200 ≤ cell.1 ∧ cell.1 ≤ 0xFFF

end Sys2Proof.Machine
end

