-- ==== Sys2Proof/Machine/Ops.lean ====
section
/-! DEFINITION. The shared operations: reading and writing each piece of state, the checks on memory accesses, raising
a fault, the fetch, the unknown-opcode skip and the timer tick. Meanings are written over these. -/

namespace Sys2Proof.Machine

/-- What a cycle's execute step gives. -/
abbrev Result := Host.Outcome State Fault Refusal

/-! ## Registers -/

/-- `V[r]` (R10). -/
def reg (r : Reg) (s : State) : Byte := s.v[r]

/-- `V[r] <- b` (R10). -/
def writeReg (r : Reg) (b : Byte) (s : State) : State := { s with v := s.v.set r b }

/-- `I <- w` (R12). -/
def setIndex (w : Word) (s : State) : State := { s with index := w }

/-- `pc <- w`, the only way control moves (00_scope.md R7). -/
def setPc (w : Word) (s : State) : State := { s with pc := w }

/-- `pc <- (pc + 2) mod 2^16` (40_cycle_engine.md R83). -/
def advance (s : State) : State := setPc (s.pc + 2) s

/-- The common shape of a skip (42_skips.md R116). -/
def skipIf (cond : Bool) (s : State) : State := if cond then setPc (s.pc + 4) s else advance s

/-- `dt <- b` (R16). -/
def setDelay (b : Byte) (s : State) : State := { s with delayTimer := b }

/-- `st <- b` (R17). -/
def setSound (b : Byte) (s : State) : State := { s with soundTimer := b }

/-! ## The stack -/

/-- Push a return address; none when all 16 entries are in use (R14, R15, 41_control_transfer.md R102). -/
def push (w : Word) (s : State) : Option State :=
  if h : s.sp.val < 16 then some { s with stack := s.stack.set s.sp.val w, sp := ⟨s.sp.val + 1, by omega⟩ } else none

/-- Pop a return address; none when no entry is in use. The entry keeps its value (R14, 41_control_transfer.md R100). -/
def pop (s : State) : Option (Word × State) :=
  if h : 0 < s.sp.val then some (s.stack[s.sp.val - 1], { s with sp := ⟨s.sp.val - 1, by omega⟩ }) else none

/-! ## Memory -/

/-- One byte of the state's memory. -/
def readByte (a : Nat) (s : State) : Byte := memRead s.memory a

/-- Store bytes at `a`, `a + 1`, … (20_memory.md R45). -/
def storeBytes (a : Nat) (bytes : List Byte) (s : State) : State :=
  { s with memory := memWriteBytes s.memory a bytes }

/-- `CheckRead(lo, hi)` (00_scope.md R7, 20_memory.md R47). -/
def checkRead (lo hi : Nat) : Option Fault :=
  if hi > 0xFFF then some (.memoryAddressOutOfRange .read (max lo 0x1000)) else none

/-- `CheckWrite(lo, hi)` (00_scope.md R7, 20_memory.md R48). -/
def checkWrite (lo hi : Nat) : Option Fault :=
  if lo < 0x200 then some (.memoryAddressOutOfRange .protect lo)
  else if hi > 0xFFF then some (.memoryAddressOutOfRange .write (max lo 0x1000))
  else none

/-! ## Taking a fault -/

/-- `raise`: there is no trap entry (60_exceptions.md R179). A fault saves nothing, changes no element of the state and
moves control nowhere; the machine stands still and the fault goes to the host as the cycle's outcome (R172). -/
def raise (f : Fault) : Result := .fault f

/-- Complete with `t` unless the check, made on the pre-state before any write, found a fault (R172). -/
def unlessFault (check : Option Fault) (t : State) : Result :=
  match check with
  | some f => raise f
  | none => .next t

/-! ## Keys -/

/-- `key[k]` (R18). -/
def keyDown (k : Key) (s : State) : Bool := s.keyboard[k]

/-- The least `k` with `key[k]` = 1, if any key is pressed (46_timers_and_keys.md R163, R165). -/
def lowestKey (s : State) : Option Key := (List.finRange 16).find? fun k => keyDown k s

/-! ## Display -/

/-- `disp[x, y]` (R19). -/
def pixelOf (d : Display) (x : Fin 64) (y : Fin 32) : Bool := d[y][x]

/-- `disp[x, y] <- disp[x, y] ^ 1` (45_display.md R151). -/
def flipPixel (d : Display) (x : Fin 64) (y : Fin 32) : Display := d.set y (d[y].set x (!d[y][x]))

/-- All 2048 pixels 0 (45_display.md R150). -/
def blankDisplay : Display := Vector.replicate 32 (Vector.replicate 64 false)

/-- `disp[x, y]` of the state. -/
def pixel (x : Fin 64) (y : Fin 32) (s : State) : Bool := pixelOf s.display x y

/-- Replace the framebuffer and set `draw_flag`, as every 00E0 and DXYN does (45_display.md R154). -/
def showDisplay (d : Display) (s : State) : State := { s with display := d, drawFlag := true }

/-! ## The random source -/

/-- `random_byte()`: a free byte, and the state whose next draw is another (R23). -/
def drawRandom (s : State) : Byte × State :=
  (Config.randomByte s.rng.seed s.rng.draws, { s with rng := { s.rng with draws := s.rng.draws + 1 } })

/-! ## The cycle's other steps -/

/-- Fetch: `MemRead(pc, 2)`, big-endian, or the fetch fault when `pc > 0x0FFE` (40_cycle_engine.md R81). -/
def fetch (s : State) : Except Fault Word :=
  if s.pc.toNat > 0x0FFE then .error (.memoryAddressOutOfRange .fetch s.pc.toNat)
  else .ok (wordOfBytes (readByte s.pc.toNat s) (readByte (s.pc.toNat + 1) s))

/-- The execute step of an unknown opcode: only `pc` moves (40_cycle_engine.md R84). -/
def skipUnknown (s : State) : State := advance s

/-- A timer counts down by one and stays at 0 (R16, R17). -/
def countDown (b : Byte) : Byte := if b.toNat > 0 then b - 1 else b

/-- The timer tick, the last step of every cycle that does not fault (40_cycle_engine.md R86, R87). -/
def tick (s : State) : State :=
  { s with delayTimer := countDown s.delayTimer, soundTimer := countDown s.soundTimer }

/-- The tick after an execute step; a fault suppresses it (R87). -/
def thenTick : Result → Result
  | .next t => .next (tick t)
  | .fault f => .fault f
  | .refused r => .refused r

end Sys2Proof.Machine
end

