-- ==== Sys2Proof/Machine/Operands.lean ====
section
/-! DEFINITION. The operand forms (30_encoding.md R62, 44_index_and_memory.md R146) and the results the instructions
compute from them: exact natural numbers first, then the reduction the rule writes. -/

namespace Sys2Proof.Machine

/-- `zext_16(NNN)` (R62). -/
def zeroExtend (nnn : Addr) : Word := BitVec.ofNat 16 nnn.toNat

/-- The effective address `I + offset`, unbounded, with no masking and no wrap (20_memory.md R50). -/
def effAddr (offset : Nat) (s : State) : Nat := s.index.toNat + offset

/-- `(x + y) mod 256` (43_load_and_alu.md R131). -/
def sumByte (x y : Byte) : Byte := BitVec.ofNat 8 (x.toNat + y.toNat)

/-- `(x - y) mod 256 = (x + 256 - y) mod 256` (R131). -/
def diffByte (x y : Byte) : Byte := BitVec.ofNat 8 (x.toNat + 256 - y.toNat)

/-- `x >> 1`, bit 7 of the result 0 (R128). -/
def halfByte (x : Byte) : Byte := BitVec.ofNat 8 (x.toNat / 2)

/-- `(x << 1) mod 256`, bit 0 of the result 0 (R130). -/
def doubleByte (x : Byte) : Byte := BitVec.ofNat 8 (x.toNat * 2)

/-- `NNN + V[0]`, no reduction needed in 16 bits (41_control_transfer.md R103). -/
def offsetTarget (nnn : Addr) (v0 : Byte) : Word := BitVec.ofNat 16 (nnn.toNat + v0.toNat)

/-- `I + x` kept in 16 bits (44_index_and_memory.md R141, R144, R145). -/
def indexPlus (i : Word) (n : Nat) : Word := BitVec.ofNat 16 (i.toNat + n)

/-- `5 * x`, the address of glyph `x` (44_index_and_memory.md R142). -/
def glyphAddr (x : Byte) : Word := BitVec.ofNat 16 (5 * x.toNat)

/-- Hundreds, tens and ones of a byte, in that order (44_index_and_memory.md R143). -/
def bcdDigits (x : Byte) : List Byte :=
  [BitVec.ofNat 8 (x.toNat / 100), BitVec.ofNat 8 (x.toNat / 10 % 10), BitVec.ofNat 8 (x.toNat % 10)]

/-- `V[0]` to `V[X]` inclusive, in ascending order (44_index_and_memory.md R144). -/
def regsUpTo (x : Reg) (s : State) : List Byte := (List.range (x.val + 1)).map fun k => reg (Fin.ofNat 16 k) s

/-- `V[i] <- MemRead(I + i, 1)` for `i` in `0 .. X`; registers above `V[X]` keep their value
(44_index_and_memory.md R145). -/
def loadUpTo (x : Reg) (s : State) : State :=
  { s with v := Vector.ofFn fun r : Fin 16 => if r.val ≤ x.val then readByte (effAddr r.val s) s else s.v[r] }

/-- `(x0 + c) mod 64`, the column a sprite bit lands on (45_display.md R152). -/
def spriteColumn (x0 : Byte) (c : Nat) : Fin 64 := Fin.ofNat 64 (x0.toNat + c)

/-- `(y0 + r) mod 32`, the row a sprite row lands on (45_display.md R152). -/
def spriteRow (y0 : Byte) (r : Nat) : Fin 32 := Fin.ofNat 32 (y0.toNat + r)

/-- Bit `7 - c` of a sprite row byte: the most significant bit is the leftmost pixel (45_display.md R152). -/
def spriteBit (b : Byte) (c : Nat) : Bool := b.getLsbD (7 - c)

end Sys2Proof.Machine
end

