-- ==== Sys2Proof/Machine/Flags.lean ====
section
/-! DEFINITION. Every flag computation: the one flag is VF = `V[15]`, written whole with 0x00 or 0x01 (10_state.md R11).
The collision flag of DXYN is computed by the draw itself, in Machine/Display.lean (45_display.md R153). -/

namespace Sys2Proof.Machine

/-- The byte a flag write stores (R11). -/
def flagByte (b : Bool) : Byte := if b then 1 else 0

/-- The flag write, always the last register write of its instruction (40_cycle_engine.md R85,
43_load_and_alu.md R132). -/
def writeFlag (b : Bool) (s : State) : State := writeReg vf (flagByte b) s

/-- 8XY4: carry out of bit 7 (R126). -/
def carryOut (x y : Byte) : Bool := decide (x.toNat + y.toNat > 255)

/-- 8XY5 and 8XY7: 1 when `minuend - subtrahend` does not borrow (R127, R129). -/
def noBorrow (minuend subtrahend : Byte) : Bool := decide (minuend.toNat ≥ subtrahend.toNat)

/-- 8XY6: the bit shifted out, bit 0 (R128). -/
def shiftedOutRight (x : Byte) : Bool := x.getLsbD 0

/-- 8XYE: the bit shifted out, bit 7 (R130). -/
def shiftedOutLeft (x : Byte) : Bool := x.getLsbD 7

/-- FX1E: the unbounded sum exceeds 0x0FFF (44_index_and_memory.md R141). -/
def indexOverflow (i : Word) (x : Byte) : Bool := decide (i.toNat + x.toNat > 0x0FFF)

end Sys2Proof.Machine
end

