-- ==== Sys2Proof/Machine/Alu.lean ====
section
/-! DEFINITION. Register load and ALU: 6XNN, 7XNN, 8XY0 to 8XY7, 8XYE, CXNN (43_load_and_alu.md).
Every operand is read from the pre-state `s` before the first write; the flag is the last write (R85, R132). -/

namespace Sys2Proof.Machine

/-- 6XNN, load immediate (R120). -/
def execLdByte (x : Reg) (nn : Byte) (s : State) : Result := .next (advance (writeReg x nn s))

/-- 7XNN, add immediate, no flag (R121). -/
def execAddByte (x : Reg) (nn : Byte) (s : State) : Result := .next (advance (writeReg x (sumByte (reg x s) nn) s))

/-- 8XY0, assign (R122). -/
def execLdReg (x y : Reg) (s : State) : Result := .next (advance (writeReg x (reg y s) s))

/-- 8XY1, bitwise OR (R123). -/
def execOrReg (x y : Reg) (s : State) : Result := .next (advance (writeReg x (reg x s ||| reg y s) s))

/-- 8XY2, bitwise AND (R124). -/
def execAndReg (x y : Reg) (s : State) : Result := .next (advance (writeReg x (reg x s &&& reg y s) s))

/-- 8XY3, bitwise exclusive OR (R125). -/
def execXorReg (x y : Reg) (s : State) : Result := .next (advance (writeReg x (reg x s ^^^ reg y s) s))

/-- The shape of the five flag-writing ALU instructions: the result, then VF, then `pc` (R132). -/
def writeWithFlag (x : Reg) (result : Byte) (flag : Bool) (s : State) : State :=
  advance (writeFlag flag (writeReg x result s))

/-- 8XY4, add with carry out (R126). -/
def execAddReg (x y : Reg) (s : State) : Result :=
  .next (writeWithFlag x (sumByte (reg x s) (reg y s)) (carryOut (reg x s) (reg y s)) s)

/-- 8XY5, subtract (R127). -/
def execSubReg (x y : Reg) (s : State) : Result :=
  .next (writeWithFlag x (diffByte (reg x s) (reg y s)) (noBorrow (reg x s) (reg y s)) s)

/-- 8XY6, shift `V[X]` right by one in place; `Y` is ignored (R128, decision D9). -/
def execShrReg (x _y : Reg) (s : State) : Result :=
  .next (writeWithFlag x (halfByte (reg x s)) (shiftedOutRight (reg x s)) s)

/-- 8XY7, subtract reversed (R129). -/
def execSubnReg (x y : Reg) (s : State) : Result :=
  .next (writeWithFlag x (diffByte (reg y s) (reg x s)) (noBorrow (reg y s) (reg x s)) s)

/-- 8XYE, shift `V[X]` left by one in place; `Y` is ignored (R130, decision D9). -/
def execShlReg (x _y : Reg) (s : State) : Result :=
  .next (writeWithFlag x (doubleByte (reg x s)) (shiftedOutLeft (reg x s)) s)

/-- CXNN, masked random byte (R133); the draw is free (assumption 1). -/
def execRnd (x : Reg) (nn : Byte) (s : State) : Result :=
  .next (advance (writeReg x ((drawRandom s).1 &&& nn) (drawRandom s).2))

end Sys2Proof.Machine
end

