-- ==== Sys2Proof/Machine/Control.lean ====
section
/-! DEFINITION. Control transfer: 00EE, 1NNN, 2NNN, BNNN (41_control_transfer.md). -/

namespace Sys2Proof.Machine

/-- 00EE, return (R100). -/
def execRet (s : State) : Result :=
  match pop s with
  | some (w, t) => .next (setPc w t)
  | none => raise .stackUnderflow

/-- 1NNN, jump (R101). -/
def execJp (nnn : Addr) (s : State) : Result := .next (setPc (zeroExtend nnn) s)

/-- 2NNN, call: pushes the address of the instruction after the call (R102). -/
def execCall (nnn : Addr) (s : State) : Result :=
  match push (s.pc + 2) s with
  | some t => .next (setPc (zeroExtend nnn) t)
  | none => raise .stackOverflow

/-- BNNN, jump to `NNN + V[0]`, not masked (R103). -/
def execJpV0 (nnn : Addr) (s : State) : Result := .next (setPc (offsetTarget nnn (reg 0 s)) s)

end Sys2Proof.Machine
end

