-- ==== Sys2Proof/Machine/Display.lean ====
section
/-! DEFINITION. Display instructions: 00E0, DXYN (45_display.md). -/

namespace Sys2Proof.Machine

/-- 00E0, clear display (R150). -/
def execCls (s : State) : Result := .next (advance (showDisplay blankDisplay s))

/-- One bit of a sprite on the framebuffer, with the collision found so far (R151): a set bit flips its pixel, and is
a hit when the pixel was on. -/
def drawBit (x : Fin 64) (y : Fin 32) (bit : Bool) (canvas : Display × Bool) : Display × Bool :=
  if bit then (flipPixel canvas.1 x y, canvas.2 || pixelOf canvas.1 x y) else canvas

/-- One row byte of a sprite, drawn at row `y` from column `x0` on, bit 7 leftmost (R151, R152). -/
def drawRow (x0 : Byte) (y : Fin 32) (b : Byte) (canvas : Display × Bool) : Display × Bool :=
  (List.range 8).foldl (fun acc c => drawBit (spriteColumn x0 c) y (spriteBit b c) acc) canvas

/-- The rows of a sprite, row `r` drawn `r` rows below `y0` (R151, R152). -/
def drawRows (x0 y0 : Byte) : Nat → List Byte → Display × Bool → Display × Bool
  | _, [], canvas => canvas
  | r, b :: bytes, canvas => drawRows x0 y0 (r + 1) bytes (drawRow x0 (spriteRow y0 r) b canvas)

/-- The `n` bytes of a sprite, from `I` on (20_memory.md R43, R45). -/
def spriteBytes (n : Nibble) (s : State) : List Byte := (List.range n.toNat).map fun r => readByte (effAddr r s) s

/-- The framebuffer after DXYN, and whether a lit pixel was cleared (R151, R153). -/
def drawSprite (x y : Reg) (n : Nibble) (s : State) : Display × Bool :=
  drawRows (reg x s) (reg y s) 0 (spriteBytes n s) (s.display, false)

/-- The read check of DXYN: none for `N` = 0, which reads no memory (R151). -/
def checkSprite (n : Nibble) (s : State) : Option Fault :=
  if n.toNat > 0 then checkRead (effAddr 0 s) (effAddr (n.toNat - 1) s) else none

/-- DXYN, draw sprite; the coordinates are read before VF is written (R151, R153, R85). -/
def execDrw (x y : Reg) (n : Nibble) (s : State) : Result :=
  unlessFault (checkSprite n s)
    (advance (writeFlag (drawSprite x y n s).2 (showDisplay (drawSprite x y n s).1 s)))

end Sys2Proof.Machine
end

