-- ==== Sys2Proof/Machine/Index.lean ====
section
/-! DEFINITION. Index register and memory instructions: ANNN, FX1E, FX29, FX33, FX55, FX65
(44_index_and_memory.md). Every range check is made on the pre-state before the first write (R47, R48). -/

namespace Sys2Proof.Machine

/-- ANNN, load index (R140). -/
def execLdIndex (nnn : Addr) (s : State) : Result := .next (advance (setIndex (zeroExtend nnn) s))

/-- FX1E, add register to index; VF is the last write (R141, R85). -/
def execAddIndex (x : Reg) (s : State) : Result :=
  .next (advance (writeFlag (indexOverflow s.index (reg x s)) (setIndex (indexPlus s.index (reg x s).toNat) s)))

/-- FX29, point at font glyph (R142). -/
def execLdGlyph (x : Reg) (s : State) : Result := .next (advance (setIndex (glyphAddr (reg x s)) s))

/-- FX33, store binary-coded decimal; `I` is unchanged (R143). -/
def execLdBcd (x : Reg) (s : State) : Result :=
  unlessFault (checkWrite (effAddr 0 s) (effAddr 2 s)) (advance (storeBytes (effAddr 0 s) (bcdDigits (reg x s)) s))

/-- FX55, store `V[0]` to `V[X]`, then `I` moves past them (R144). -/
def execStoreRegs (x : Reg) (s : State) : Result :=
  unlessFault (checkWrite (effAddr 0 s) (effAddr x.val s))
    (advance (setIndex (indexPlus s.index (x.val + 1)) (storeBytes (effAddr 0 s) (regsUpTo x s) s)))

/-- FX65, load `V[0]` to `V[X]`, then `I` moves past them (R145). -/
def execLoadRegs (x : Reg) (s : State) : Result :=
  unlessFault (checkRead (effAddr 0 s) (effAddr x.val s))
    (advance (setIndex (indexPlus s.index (x.val + 1)) (loadUpTo x s)))

end Sys2Proof.Machine
end

