-- ==== Sys2Proof/Machine/Skips.lean ====
section
/-! DEFINITION. Conditional skips: 3XNN, 4XNN, 5XY0, 9XY0, EX9E, EXA1 (42_skips.md). -/

namespace Sys2Proof.Machine

/-- 3XNN, skip if equal to immediate (R110). -/
def execSeByte (x : Reg) (nn : Byte) (s : State) : Result := .next (skipIf (reg x s == nn) s)

/-- 4XNN, skip if not equal to immediate (R111). -/
def execSneByte (x : Reg) (nn : Byte) (s : State) : Result := .next (skipIf (reg x s != nn) s)

/-- 5XY0, skip if registers equal (R112). -/
def execSeReg (x y : Reg) (s : State) : Result := .next (skipIf (reg x s == reg y s) s)

/-- 9XY0, skip if registers differ (R113). -/
def execSneReg (x y : Reg) (s : State) : Result := .next (skipIf (reg x s != reg y s) s)

/-- Skip when the key `V[X]` is in the state `wanted`; an index above 15 faults (R114, R115). -/
def skipOnKey (x : Reg) (wanted : Bool) (s : State) : Result :=
  if h : (reg x s).toNat < 16 then .next (skipIf (keyDown ⟨(reg x s).toNat, h⟩ s == wanted) s)
  else raise (.keyIndexOutOfRange (reg x s))

/-- EX9E, skip if key pressed (R114). -/
def execSkp (x : Reg) (s : State) : Result := skipOnKey x true s

/-- EXA1, skip if key not pressed (R115). -/
def execSknp (x : Reg) (s : State) : Result := skipOnKey x false s

end Sys2Proof.Machine
end

