-- ==== Sys2Proof/Machine/TimersKeys.lean ====
section
/-! DEFINITION. Timer and key-wait instructions: FX07, FX0A, FX15, FX18 (46_timers_and_keys.md).
The tick follows each of them in the same cycle (R164); Machine/Step.lean adds it. -/

namespace Sys2Proof.Machine

/-- FX07, read delay timer, before this cycle's tick (R160). -/
def execLdRegDelay (x : Reg) (s : State) : Result := .next (advance (writeReg x s.delayTimer s))

/-- FX0A, wait for a key: with none pressed the state is unchanged and the cycle reports WAIT_KEY; otherwise the lowest
pressed index is written (R163, R165). -/
def execLdRegKey (x : Reg) (s : State) : Result :=
  match lowestKey s with
  | some k => .next (advance (writeReg x (BitVec.ofNat 8 k.val) s))
  | none => .next s

/-- FX15, set delay timer (R161). -/
def execLdDelayReg (x : Reg) (s : State) : Result := .next (advance (setDelay (reg x s) s))

/-- FX18, set sound timer (R162). -/
def execLdSoundReg (x : Reg) (s : State) : Result := .next (advance (setSound (reg x s) s))

end Sys2Proof.Machine
end

