-- ==== Sys2Proof/Machine/Step.lean ====
section
/-! DEFINITION. The cycle (40_cycle_engine.md R80, R90): fetch, decode, execute, timer tick. What each cycle reports to
the host is in Machine/Report.lean (R170: an outcome is not stored in the machine state). -/

namespace Sys2Proof.Machine

/-- One cycle. A fault leaves the state as it was (60_exceptions.md R172); an unknown opcode is skipped (R84). -/
def step (s : State) : Host.Outcome State Fault Refusal :=
  match fetch s with
  | .error f => raise f
  | .ok op =>
    match decodeWord op with
    | .ok i => thenTick (exec i s)
    | .error _ => thenTick (.next (skipUnknown s))

/-- `s` with a word stored where `step` fetches its next instruction, big-endian at `pc`. A `pc` no instruction can be
fetched from (above 0x0FFE, R81) is first moved to the entry point 0x200. It stands for the load of a program from
outside the machine (assumption 4). -/
def State.withFetchWord (s : State) (nbits w : Nat) : State :=
  let t : State := if s.pc.toNat > 0x0FFE then setPc 0x200 s else s
  storeBytes t.pc.toNat [highByte (tableWord nbits w), lowByte (tableWord nbits w)] t

end Sys2Proof.Machine
end

