-- ==== Sys2Proof/Machine/Report.lean ====
section
/-! DEFINITION. The outcome of a cycle (40_cycle_engine.md R88, 60_exceptions.md R170): an output of the cycle, not a
part of the state (R24), so it is computed here from the pre-state. -/

namespace Sys2Proof.Machine

/-- The outcomes of R170. -/
inductive CycleOutcome where
  /-- A completed instruction. -/
  | ok
  /-- FX0A with no key pressed, a report (R163). -/
  | waitKey
  /-- A word outside the opcode map, a report that carries the word (R84). -/
  | unknownOpcode (op : Word)
  /-- A fault of R171. -/
  | fault (f : Fault)
deriving DecidableEq, Repr

/-- The numeric codes of R170; labels only (decision D15). -/
def outcomeCode : CycleOutcome → Nat
  | .ok => 0
  | .waitKey => 1
  | .unknownOpcode _ => 2
  | .fault .stackOverflow => 3
  | .fault .stackUnderflow => 4
  | .fault (.memoryAddressOutOfRange _ _) => 5
  | .fault (.keyIndexOutOfRange _) => 6

/-- The instruction is an FX0A that waits in this state (R163); no other instruction waits (60_exceptions.md R192). -/
def waiting (i : Instr) (s : State) : Bool :=
  match i with
  | .ldRegKey _ => (lowestKey s).isNone
  | _ => false

/-- What a cycle that completes tells the host (R174, R177). -/
def completionReport (s : State) : CycleOutcome :=
  match fetch s with
  | .error f => .fault f
  | .ok op =>
    match decodeWord op with
    | .ok i => if waiting i s then .waitKey else .ok
    | .error _ => .unknownOpcode op

/-- The cycle with its outcome, the function of 40_cycle_engine.md R90: after a fault the post-state is the pre-state
(60_exceptions.md R172). -/
def cycle (s : State) : Except Refusal (State × CycleOutcome) :=
  match step s with
  | .next t => .ok (t, completionReport s)
  | .fault f => .ok (s, .fault f)
  | .refused r => .error r

end Sys2Proof.Machine
end

