-- ==== Sys2Proof/Machine/HostPort.lean ====
section
/-! DEFINITION. The host's side of the machine (60_exceptions.md R184 to R189, 70_reset_and_hazards.md R200 to R207):
the operations it may issue between cycles, one at a time, each atomic (R186), and the outputs it reads. -/

namespace Sys2Proof.Machine

/-- The loader's results (60_exceptions.md R175, R176). -/
inductive LoadResult where
  /-- Code 0. -/
  | success
  /-- Code 7: more than 3584 bytes; nothing is changed. -/
  | romTooLarge
  /-- Code 8: the external file reader failed. The core's loader never gives it; it completes the host's list (R176). -/
  | romReadIncomplete
deriving DecidableEq, Repr

/-- The numeric codes of R175 and R176; labels only (decision D15). -/
def loadCode : LoadResult → Nat
  | .success => 0
  | .romTooLarge => 7
  | .romReadIncomplete => 8

/-- The loader (R203, R221): copies the bytes to 0x200 and on, or refuses a program that is too long; it changes
nothing else and does not interpret the bytes (R205). -/
def load (bytes : List Byte) (s : State) : State × LoadResult :=
  if programWellFormed bytes then (storeBytes 0x200 bytes s, .success) else (s, .romTooLarge)

/-- The host writes one key state (60_exceptions.md R185). -/
def writeKey (k : Key) (pressed : Bool) (s : State) : State := { s with keyboard := s.keyboard.set k pressed }

/-- The host clears `draw_flag` (60_exceptions.md R189). -/
def drawAck (s : State) : State := { s with drawFlag := false }

/-- `sound_active`, the output to the audio collaborator (60_exceptions.md R184). -/
def soundActive (s : State) : Bool := decide (s.soundTimer.toNat > 0)

/-- Bit `k` of the output `display[2047:0]`: pixel (x, y) is at linear index `y * 64 + x` (10_state.md R19,
60_exceptions.md R186). -/
def displayBit (k : Fin 2048) (s : State) : Bool := pixel (Fin.ofNat 64 (k.val % 64)) (Fin.ofNat 32 (k.val / 64)) s

/-- What the host may issue between cycles, and nothing more (60_exceptions.md R186, R187). Reading an output changes
nothing and is no move. `entropy` is the seed the time-varying source gives (R26). -/
inductive HostMove where
  | reset (entropy : Nat)
  | load (bytes : List Byte)
  | step
  | writeKey (k : Key) (pressed : Bool)
  | drawAck
deriving DecidableEq, Repr

/-- What the machine answers to a host move. -/
inductive HostReply where
  /-- The move has no result (reset, a key write, `draw_ack`). -/
  | silent
  /-- The outcome of a cycle (R170). -/
  | cycled (o : CycleOutcome)
  /-- The result of a load (R175). -/
  | loaded (r : LoadResult)
deriving DecidableEq, Repr

/-- A host move on a machine that has been reset. -/
def hostMoveAfterReset (m : HostMove) (s : State) : Except Refusal (State × HostReply) :=
  match m with
  | .reset entropy => .ok (State.resetWith entropy, .silent)
  | .load bytes => .ok ((load bytes s).1, .loaded (load bytes s).2)
  | .step =>
    match cycle s with
    | .ok (t, o) => .ok (t, .cycled o)
    | .error r => .error r
  | .writeKey k pressed => .ok (writeKey k pressed s, .silent)
  | .drawAck => .ok (drawAck s, .silent)

/-- A host move on the machine as it stands: `none` is the machine before its first reset, whose state is unspecified
and on which only reset has a meaning (10_state.md R27, 70_reset_and_hazards.md R207, assumption 5). -/
def hostMove (m : HostMove) : Option State → Except Refusal (State × HostReply)
  | some s => hostMoveAfterReset m s
  | none =>
    match m with
    | .reset entropy => .ok (State.resetWith entropy, .silent)
    | .load _ => .error .beforeFirstReset
    | .step => .error .beforeFirstReset
    | .writeKey _ _ => .error .beforeFirstReset
    | .drawAck => .error .beforeFirstReset

/-- Host moves one after another, in the order of the list: any number of them, in any order (60_exceptions.md R187). The
first refused move ends the list with its reason. -/
def hostMoves : List HostMove → Option State → Except Refusal (Option State)
  | [], machine => .ok machine
  | m :: rest, machine =>
    match hostMove m machine with
    | .ok (t, _) => hostMoves rest (some t)
    | .error r => .error r

/-- The launch of a program: reset, then one load (70_reset_and_hazards.md R206). `none` when the loader refuses. -/
def launch (entropy : Nat) (bytes : List Byte) : Option State :=
  match load bytes (State.resetWith entropy) with
  | (s, .success) => some s
  | (_, .romTooLarge) => none
  | (_, .romReadIncomplete) => none

end Sys2Proof.Machine
end

