-- ==== Sys2Proof/Safety.lean ====
section
/-! DEFINITION. The terms in which claims about the machine are stated: the places of the state and what each holds,
what a change leaves alone, the invariant of the reachable states, a safe cycle and the end of a run. -/

namespace Sys2Proof.Machine

/-- Every place of the machine state, one by one: a register, an entry, a byte, a pixel (10_state.md). -/
inductive Place where
  | reg (r : Reg)
  | index
  | pc
  | sp
  | stack (k : Fin 16)
  | delayTimer
  | soundTimer
  | byte (a : Nat)
  | key (k : Key)
  | pixel (x : Fin 64) (y : Fin 32)
  | drawFlag
  | rng
deriving DecidableEq, Repr

/-- Two states hold the same at a place; a byte of memory is compared through the model's read of one byte. -/
def sameAt (p : Place) (s t : State) : Prop :=
  match p with
  | .reg r => reg r t = reg r s
  | .index => t.index = s.index
  | .pc => t.pc = s.pc
  | .sp => t.sp = s.sp
  | .stack k => t.stack[k] = s.stack[k]
  | .delayTimer => t.delayTimer = s.delayTimer
  | .soundTimer => t.soundTimer = s.soundTimer
  | .byte a => readByte a t = readByte a s
  | .key k => keyDown k t = keyDown k s
  | .pixel x y => pixel x y t = pixel x y s
  | .drawFlag => t.drawFlag = s.drawFlag
  | .rng => t.rng = s.rng

/-- The frame: from `s` to `t` every place outside `written` holds what it held. -/
def ChangesOnly (written : Place → Prop) (s t : State) : Prop := ∀ p, ¬ written p → sameAt p s t

/-- The invariant of the states the machine reaches: the memory keeps its canonical form and lists nothing an instruction
may not write (20_memory.md R48), and the bounds of 70_reset_and_hazards.md R220 on `pc` and the stack entries in use. -/
structure StateInv (s : State) : Prop where
  memoryCanonical : Memory.wf s.memory
  memoryInProgramRegion : Memory.inProgramRegion s.memory
  pcBound : s.pc.toNat ≤ 0x10FE
  stackBound : ∀ k : Fin 16, k.val < s.sp.val → s.stack[k].toNat ≤ 0x1000

/-- A safe cycle: it completes, with or without a report, and does not fault (60_exceptions.md R170). -/
def CycleSafe (s : State) : Prop := ∃ t, step s = .next t

/-- Every word with this mask and match value is the instruction `f` makes of it, as an instruction rule's "Encoding:"
line says (30_encoding.md R69). -/
def WordsDecodeTo (mask value : Word) (f : Word → Instr) : Prop :=
  ∀ op : Word, op &&& mask = value → decodeWord op = .ok (f op)

/-- `n` cycles lead from `s` to `t`, all of them complete, and none of them executes an instruction with `avoided`.
Waiting and unknown-opcode cycles count (46_timers_and_keys.md R164). -/
def CyclesWithout (avoided : Instr → Prop) : Nat → State → State → Prop
  | 0, s, t => t = s
  | n + 1, s, t => ∃ u, CyclesWithout avoided n s u ∧ step u = .next t ∧
      ∀ op i, fetch u = .ok op → decodeWord op = .ok i → ¬ avoided i

/-- Two results agree outside `w`: both complete with states that hold the same at every other place, or both stop for
the same reason. -/
def AgreeOutside (w : Place → Prop) (r r' : Result) : Prop :=
  match r, r' with
  | .next t, .next t' => ChangesOnly w t t'
  | .fault f, .fault f' => f = f'
  | .refused a, .refused a' => a = a'
  | _, _ => False

/-- The end of a run (70_reset_and_hazards.md R219, decision D25): the word at `pc` is a jump to itself. -/
def Terminal (s : State) : Prop :=
  s.pc.toNat ≤ 0x0FFE ∧ fetch s = .ok (BitVec.ofNat 16 (0x1000 + s.pc.toNat))

end Sys2Proof.Machine
end

