-- ==== Sys2Proof/Certificates/Slice0/Obligations.lean ====
section
/-! DEFINITION. The statements for the provers. Each docstring says which rules of spec/ it formalises, and names the
decision of 92_eei_decisions.md or the log entry where a clause rests on a choice and not on the source. -/

open Sys2Proof Sys2Proof.Machine

/-- Bit by bit: T is op[15:12], X is op[11:8], Y is op[7:4], N is op[3:0], NN is op[7:0], NNN is op[11:0]. Follows
R61. -/
def Obligations.FieldsAreTheSlicesOfTheWord : Prop :=
  ∀ op : Word,
  (∀ k < 4, (fieldT op).getLsbD k = op.getLsbD (12 + k)) ∧
  (∀ k < 4, (fieldX op).val.testBit k = op.getLsbD (8 + k)) ∧
  (∀ k < 4, (fieldY op).val.testBit k = op.getLsbD (4 + k)) ∧
  (∀ k < 4, (fieldN op).getLsbD k = op.getLsbD k) ∧
  (∀ k < 8, (fieldNN op).getLsbD k = op.getLsbD k) ∧
  (∀ k < 12, (fieldNNN op).getLsbD k = op.getLsbD k)

/-- One word of each family, taken from the examples of files 41 to 46, decodes to its instruction; 0x5001, 0x01E0 and
0x8238 are unknown (the last two by the spec's decision D16). Follows 41_control_transfer.md, 42_skips.md,
43_load_and_alu.md, 44_index_and_memory.md, 45_display.md, 46_timers_and_keys.md, 92_eei_decisions.md D16. -/
def Obligations.SpecWordsDecodeToTheirInstructions : Prop :=
  decodeWord 0x00E0 = .ok .cls ∧ decodeWord 0x220A = .ok (.call 0x20A) ∧
  decodeWord 0x5340 = .ok (.seReg 3 4) ∧ decodeWord 0xE5A1 = .ok (.sknp 5) ∧
  decodeWord 0x7301 = .ok (.addByte 3 0x01) ∧ decodeWord 0x8015 = .ok (.subReg 0 1) ∧
  decodeWord 0xF355 = .ok (.storeRegs 3) ∧ decodeWord 0xD012 = .ok (.drw 0 1 2) ∧
  decodeWord 0xF218 = .ok (.ldSoundReg 2) ∧ decodeWord 0x5001 = .error (.unknownOpcode 0x5001) ∧
  decodeWord 0x01E0 = .error (.unknownOpcode 0x01E0) ∧ decodeWord 0x8238 = .error (.unknownOpcode 0x8238)

/-- For every instruction, the decoder reads it back from its word, and from its two bytes as memory holds them with
any bytes after them, which it leaves. No bit of an encoding is dropped. Follows R60, R61, R69, R44. -/
def Obligations.DecodeOfEncodeIsTheInstruction : Prop :=
  ∀ (i : Instr) (rest : List Byte),
  decodeWord (encode i) = .ok i ∧ decode (encodeBytes i ++ rest) = .ok (i, rest)

/-- If a word decodes to an instruction, encoding that instruction gives the same 16 bits: every bit is a fixed bit of
the match or an operand, the ignored Y of 8XY6 and 8XYE included. That no accepted word has a stray bit (0x01E0 is not
00E0, 9XYN needs N = 0) is the spec's decision D16, and that the Y of 8XY6 and 8XYE is ignored its decision D9.
Follows R69, R71, 92_eei_decisions.md D16, 92_eei_decisions.md D9. -/
def Obligations.EncodeOfDecodeIsTheWord : Prop :=
  ∀ (op : Word) (i : Instr), decodeWord op = .ok i → encode i = op

/-- The map has 34 rows; for each row, op & mask = match holds exactly for the words the decoder reads as that row's
instruction; two rows that accept one word are the same row. The strict matching of families 0, 5, 8, 9, E and F rests
on the spec's decisions D10 and D16. Follows R69, R63, 92_eei_decisions.md D10, 92_eei_decisions.md D16. -/
def Obligations.OpcodeMapRowsDecideTheDecoder : Prop :=
  opcodeMap.length = 34 ∧
  (∀ op : Word, ∀ row ∈ opcodeMap,
    (op &&& row.mask = row.value ↔ ∃ i, decodeWord op = .ok i ∧ i.rowNumber = row.number)) ∧
  (∀ op : Word, ∀ row ∈ opcodeMap, ∀ row' ∈ opcodeMap,
    op &&& row.mask = row.value → op &&& row'.mask = row'.value → row = row')

/-- A word is rejected exactly when it is of family 0 but not 0x00E0 or 0x00EE, of family 5 or 9 with N not 0, of
family 8 with N in 8, 9, A, B, C, D, F, of family E with NN not 9E or A1, or of family F with NN none of the nine; the
rejection carries the word. Rests on the spec's decisions D10 and D16. Follows R70, 92_eei_decisions.md D10,
92_eei_decisions.md D16. -/
def Obligations.UnknownWordsAreExactlyThese : Prop :=
  ∀ (op : Word) (e : DecodeError), decodeWord op = .error e ↔
  e = .unknownOpcode op ∧
    ((op.toNat / 0x1000 = 0x0 ∧ op ≠ 0x00E0 ∧ op ≠ 0x00EE) ∨
     ((op.toNat / 0x1000 = 0x5 ∨ op.toNat / 0x1000 = 0x9) ∧ op.toNat % 0x10 ≠ 0) ∨
     (op.toNat / 0x1000 = 0x8 ∧ op.toNat % 0x10 ∈ [0x8, 0x9, 0xA, 0xB, 0xC, 0xD, 0xF]) ∨
     (op.toNat / 0x1000 = 0xE ∧ op.toNat % 0x100 ∉ [0x9E, 0xA1]) ∨
     (op.toNat / 0x1000 = 0xF ∧
       op.toNat % 0x100 ∉ [0x07, 0x0A, 0x15, 0x18, 0x1E, 0x29, 0x33, 0x55, 0x65]))

/-- When pc is at most 0x0FFE and the bytes at pc and pc + 1 decode to an instruction i: if exec of i gives a next
state, step gives that state with both timers counted down by one (0 stays 0) and nothing else changed, and the cycle
reports WAIT_KEY when i is an FX0A with no key pressed and OK otherwise; if exec of i faults, step faults the same and
the cycle leaves the state as it was. That a fault suppresses the tick and that a waiting cycle ticks is the spec's
decision D1, that a faulting cycle leaves the state as it was its decision D2, and that an FX0A reports WAIT_KEY while
no key is held and OK as soon as one is its decision D11. Follows R80, R82, R83, R86, R90, R163, R172,
92_eei_decisions.md D1, 92_eei_decisions.md D2, 92_eei_decisions.md D11. -/
def Obligations.StepRunsTheDecodedInstruction : Prop :=
  ∀ (s : State) (i : Instr), s.pc.toNat ≤ 0x0FFE →
  decode [readByte s.pc.toNat s, readByte (s.pc.toNat + 1) s] = .ok (i, []) →
    (∀ t, exec i s = .next t →
      ∃ u, step s = .next u ∧ u.delayTimer.toNat = t.delayTimer.toNat - 1 ∧
        u.soundTimer.toNat = t.soundTimer.toNat - 1 ∧ u.memory = t.memory ∧
        ChangesOnly (fun p => p = .delayTimer ∨ p = .soundTimer) t u ∧
        ((∃ x, i = .ldRegKey x) ∧ (∀ k, keyDown k s = false) → cycle s = .ok (u, .waitKey)) ∧
        (¬((∃ x, i = .ldRegKey x) ∧ (∀ k, keyDown k s = false)) → cycle s = .ok (u, .ok))) ∧
    (∀ f, exec i s = .fault f → step s = .fault f ∧ cycle s = .ok (s, .fault f))

/-- When pc is at most 0x0FFE and the big-endian word at pc is none the decoder accepts, the cycle completes, reports
UNKNOWN_OPCODE with that word, moves pc by 2 and ticks the timers; nothing else changes. The tick is the spec's
decision D1. Follows R84, R70, R174, 92_eei_decisions.md D1. -/
def Obligations.UnknownOpcodeIsSkippedAndReported : Prop :=
  ∀ (s : State) (op : Word) (e : DecodeError), s.pc.toNat ≤ 0x0FFE →
  op.toNat = (readByte s.pc.toNat s).toNat * 256 + (readByte (s.pc.toNat + 1) s).toNat →
  decodeWord op = .error e →
    ∃ t, step s = .next t ∧ cycle s = .ok (t, .unknownOpcode op) ∧ t.pc = s.pc + 2 ∧
      t.delayTimer.toNat = s.delayTimer.toNat - 1 ∧ t.soundTimer.toNat = s.soundTimer.toNat - 1 ∧
      ChangesOnly (fun p => p = .pc ∨ p = .delayTimer ∨ p = .soundTimer) s t

/-- When pc is above 0x0FFE, step faults with MemoryAddressOutOfRange(FETCH, pc), and the cycle leaves the state as it
was. The fault is the spec's decision D4, its precision D2. Follows R81, 92_eei_decisions.md D4, 92_eei_decisions.md
D2. -/
def Obligations.FetchPastTheEndFaults : Prop :=
  ∀ s : State, s.pc.toNat > 0x0FFE →
  step s = .fault (.memoryAddressOutOfRange .fetch s.pc.toNat) ∧
    cycle s = .ok (s, .fault (.memoryAddressOutOfRange .fetch s.pc.toNat))

/-- For every state the cycle gives a post-state and one outcome; the outcome is a fault exactly when step faults,
with the same fault, and then the post-state is the pre-state; otherwise the post-state is the one step gives. That
faults change nothing is the spec's decision D2. Follows R88, R172, R177, 92_eei_decisions.md D2. -/
def Obligations.EveryCycleHasOneOutcomeAndFaultsAreExact : Prop :=
  ∀ s : State, ∃ t o, cycle s = .ok (t, o) ∧
  (∀ f, o = .fault f ↔ step s = .fault f) ∧
  ((∃ f, o = .fault f) → t = s) ∧
  ((∀ f, o ≠ .fault f) → step s = .next t)

/-- In every completed cycle, the delay timer ends as V[X] minus 1 after an FX15 and otherwise as its old value minus
1, the sound timer likewise with FX18; 0 stays 0. Waiting and unknown-opcode cycles tick too (the spec's decision D1).
Follows R86, R87, R16, R17, 92_eei_decisions.md D1. -/
def Obligations.TimersTickOncePerCompletedCycle : Prop :=
  ∀ (s t : State) (op : Word), fetch s = .ok op → step s = .next t →
  t.delayTimer.toNat =
    (match decodeWord op with
      | .ok (.ldDelayReg x) => (reg x s).toNat
      | _ => s.delayTimer.toNat) - 1 ∧
  t.soundTimer.toNat =
    (match decodeWord op with
      | .ok (.ldSoundReg x) => (reg x s).toNat
      | _ => s.soundTimer.toNat) - 1

/-- If the cycle of a state faults with f, the machine stays in that state, and the next cycle faults with f again,
also after any key write and after a draw_ack. The spec derives this (R173) from its decision D2. Follows R173,
92_eei_decisions.md D2. -/
def Obligations.AFaultRepeatsUntilReset : Prop :=
  ∀ (s : State) (f : Fault), step s = .fault f →
  cycle s = .ok (s, .fault f) ∧
  (∀ k down, step (writeKey k down s) = .fault f) ∧ step (drawAck s) = .fault f

/-- Every word 0x1NNN is the jump and every word 0xBNNN the indexed jump; both complete in every state, with pc = NNN
and pc = NNN + V[0] as exact numbers, and change only pc. Follows R101, R103. -/
def Obligations.JumpsGoToTheirTargets : Prop :=
  WordsDecodeTo 0xF000 0x1000 (fun op => .jp (fieldNNN op)) ∧
  WordsDecodeTo 0xF000 0xB000 (fun op => .jpV0 (fieldNNN op)) ∧
  ∀ (nnn : Addr) (s : State),
    (∃ t, exec (.jp nnn) s = .next t ∧ t.pc.toNat = nnn.toNat ∧ ChangesOnly (fun p => p = .pc) s t) ∧
    (∃ t, exec (.jpV0 nnn) s = .next t ∧ t.pc.toNat = nnn.toNat + (reg 0 s).toNat ∧
      ChangesOnly (fun p => p = .pc) s t)

/-- Every word 0x2NNN is the call. With sp below 16 it completes: stack[sp] = pc + 2 with the old sp, sp grows by 1,
pc = NNN, and nothing else changes. With sp = 16 it faults with StackOverflow (the spec's decision D3). Follows R102,
92_eei_decisions.md D3. -/
def Obligations.CallPushesTheNextAddress : Prop :=
  WordsDecodeTo 0xF000 0x2000 (fun op => .call (fieldNNN op)) ∧
  ∀ (nnn : Addr) (s : State),
    (∀ room : s.sp.val < 16, ∃ t, exec (.call nnn) s = .next t ∧ t.stack[s.sp.val] = s.pc + 2 ∧
      t.sp.val = s.sp.val + 1 ∧ t.pc.toNat = nnn.toNat ∧
      ChangesOnly (fun p => p = .stack ⟨s.sp.val, room⟩ ∨ p = .sp ∨ p = .pc) s t) ∧
    (s.sp.val = 16 → exec (.call nnn) s = .fault .stackOverflow)

/-- The word 0x00EE is the return. With sp above 0 it completes: pc = stack[sp - 1] with the old sp, sp shrinks by 1,
and nothing else changes, the popped entry included. With sp = 0 it faults with StackUnderflow (the spec's decision
D3). Follows R100, R14, 92_eei_decisions.md D3. -/
def Obligations.ReturnPopsTheAddress : Prop :=
  WordsDecodeTo 0xFFFF 0x00EE (fun _ => .ret) ∧
  ∀ s : State,
    (0 < s.sp.val → ∃ t, exec .ret s = .next t ∧ t.pc = s.stack[s.sp.val - 1] ∧ t.sp.val = s.sp.val - 1 ∧
      ChangesOnly (fun p => p = .sp ∨ p = .pc) s t) ∧
    (s.sp.val = 0 → exec .ret s = .fault .stackUnderflow)

/-- A call completes exactly when sp is below 16. If it does, with sp = k before it, then a return in any later state
with sp = k + 1 and the same stack[k] completes, with pc = the call's pc + 2 and sp = k. That a call with sp = 16 does
not complete is the spec's decision D3. Follows R104, R102, 92_eei_decisions.md D3. -/
def Obligations.CallThenReturnComesBack : Prop :=
  ∀ (nnn : Addr) (s : State),
  ((∃ t, exec (.call nnn) s = .next t) ↔ s.sp.val < 16) ∧
  ∀ t u, exec (.call nnn) s = .next t → u.sp.val = s.sp.val + 1 →
    (∀ _ : s.sp.val < 16, u.stack[s.sp.val] = t.stack[s.sp.val]) →
      ∃ w, exec .ret u = .next w ∧ w.pc = s.pc + 2 ∧ w.sp = s.sp

/-- The words of the four patterns are the four skips; each completes in every state and changes only pc: by 4 when
V[X] = NN, V[X] differs from NN, V[X] = V[Y], V[X] differs from V[Y] respectively, else by 2. Follows R110, R111,
R112, R113, R116. -/
def Obligations.ByteSkipsMoveOnlyPc : Prop :=
  WordsDecodeTo 0xF000 0x3000 (fun op => .seByte (fieldX op) (fieldNN op)) ∧
  WordsDecodeTo 0xF000 0x4000 (fun op => .sneByte (fieldX op) (fieldNN op)) ∧
  WordsDecodeTo 0xF00F 0x5000 (fun op => .seReg (fieldX op) (fieldY op)) ∧
  WordsDecodeTo 0xF00F 0x9000 (fun op => .sneReg (fieldX op) (fieldY op)) ∧
  ∀ (x y : Reg) (nn : Byte) (s : State),
    (∃ t, exec (.seByte x nn) s = .next t ∧ t.pc = (if reg x s = nn then s.pc + 4 else s.pc + 2) ∧
      ChangesOnly (fun p => p = .pc) s t) ∧
    (∃ t, exec (.sneByte x nn) s = .next t ∧ t.pc = (if reg x s ≠ nn then s.pc + 4 else s.pc + 2) ∧
      ChangesOnly (fun p => p = .pc) s t) ∧
    (∃ t, exec (.seReg x y) s = .next t ∧ t.pc = (if reg x s = reg y s then s.pc + 4 else s.pc + 2) ∧
      ChangesOnly (fun p => p = .pc) s t) ∧
    (∃ t, exec (.sneReg x y) s = .next t ∧ t.pc = (if reg x s ≠ reg y s then s.pc + 4 else s.pc + 2) ∧
      ChangesOnly (fun p => p = .pc) s t)

/-- The words of the two patterns are the key skips. With V[X] at most 15 each completes and changes only pc, by 4
when key V[X] is pressed (EX9E) or not pressed (EXA1), else by 2. With V[X] above 15 each faults with
KeyIndexOutOfRange(V[X]) (the spec's decision D12). Follows R114, R115, R116, 92_eei_decisions.md D12. -/
def Obligations.KeySkipsTestOneKey : Prop :=
  WordsDecodeTo 0xF0FF 0xE09E (fun op => .skp (fieldX op)) ∧
  WordsDecodeTo 0xF0FF 0xE0A1 (fun op => .sknp (fieldX op)) ∧
  ∀ (x : Reg) (s : State),
    ((reg x s).toNat ≤ 15 →
      (∃ t, exec (.skp x) s = .next t ∧
        t.pc = (if keyDown (Fin.ofNat 16 (reg x s).toNat) s = true then s.pc + 4 else s.pc + 2) ∧
        ChangesOnly (fun p => p = .pc) s t) ∧
      (∃ t, exec (.sknp x) s = .next t ∧
        t.pc = (if keyDown (Fin.ofNat 16 (reg x s).toNat) s = false then s.pc + 4 else s.pc + 2) ∧
        ChangesOnly (fun p => p = .pc) s t)) ∧
    ((reg x s).toNat > 15 →
      exec (.skp x) s = .fault (.keyIndexOutOfRange (reg x s)) ∧
      exec (.sknp x) s = .fault (.keyIndexOutOfRange (reg x s)))

/-- The words of the two patterns are the two instructions; each completes in every state, writes V[X] with NN and
with (V[X] + NN) mod 256 respectively, moves pc by 2, and changes nothing else. Follows R120, R121. -/
def Obligations.ImmediateLoadAndAdd : Prop :=
  WordsDecodeTo 0xF000 0x6000 (fun op => .ldByte (fieldX op) (fieldNN op)) ∧
  WordsDecodeTo 0xF000 0x7000 (fun op => .addByte (fieldX op) (fieldNN op)) ∧
  ∀ (x : Reg) (nn : Byte) (s : State),
    (∃ t, exec (.ldByte x nn) s = .next t ∧ reg x t = nn ∧ t.pc = s.pc + 2 ∧
      ChangesOnly (fun p => p = .reg x ∨ p = .pc) s t) ∧
    (∃ t, exec (.addByte x nn) s = .next t ∧ (reg x t).toNat = ((reg x s).toNat + nn.toNat) % 256 ∧
      t.pc = s.pc + 2 ∧ ChangesOnly (fun p => p = .reg x ∨ p = .pc) s t)

/-- The words of the four patterns are the four instructions; each completes in every state, writes V[X] with the
value of the rule computed from the pre-state bit by bit, moves pc by 2, and changes nothing else. Follows R122, R123,
R124, R125. -/
def Obligations.AssignAndLogicWriteOnlyTheirRegister : Prop :=
  WordsDecodeTo 0xF00F 0x8000 (fun op => .ldReg (fieldX op) (fieldY op)) ∧
  WordsDecodeTo 0xF00F 0x8001 (fun op => .orReg (fieldX op) (fieldY op)) ∧
  WordsDecodeTo 0xF00F 0x8002 (fun op => .andReg (fieldX op) (fieldY op)) ∧
  WordsDecodeTo 0xF00F 0x8003 (fun op => .xorReg (fieldX op) (fieldY op)) ∧
  ∀ (x y : Reg) (s : State),
    (∃ t, exec (.ldReg x y) s = .next t ∧ reg x t = reg y s ∧ t.pc = s.pc + 2 ∧
      ChangesOnly (fun p => p = .reg x ∨ p = .pc) s t) ∧
    (∃ t, exec (.orReg x y) s = .next t ∧
      (∀ k < 8, (reg x t).getLsbD k = ((reg x s).getLsbD k || (reg y s).getLsbD k)) ∧ t.pc = s.pc + 2 ∧
      ChangesOnly (fun p => p = .reg x ∨ p = .pc) s t) ∧
    (∃ t, exec (.andReg x y) s = .next t ∧
      (∀ k < 8, (reg x t).getLsbD k = ((reg x s).getLsbD k && (reg y s).getLsbD k)) ∧ t.pc = s.pc + 2 ∧
      ChangesOnly (fun p => p = .reg x ∨ p = .pc) s t) ∧
    (∃ t, exec (.xorReg x y) s = .next t ∧
      (∀ k < 8, (reg x t).getLsbD k = ((reg x s).getLsbD k ^^ (reg y s).getLsbD k)) ∧ t.pc = s.pc + 2 ∧
      ChangesOnly (fun p => p = .reg x ∨ p = .pc) s t)

/-- The words of the pattern are the instruction; it completes in every state: VF ends as 1 when V[X] + V[Y] exceeds
255 and 0 otherwise, V[X] as the sum mod 256 unless X is 0xF (then the flag is what remains), pc moves by 2, nothing
else changes. Follows R126. -/
def Obligations.AddSetsVfToTheCarry : Prop :=
  WordsDecodeTo 0xF00F 0x8004 (fun op => .addReg (fieldX op) (fieldY op)) ∧
  ∀ (x y : Reg) (s : State), ∃ t, exec (.addReg x y) s = .next t ∧
    (x ≠ vf → (reg x t).toNat = ((reg x s).toNat + (reg y s).toNat) % 256) ∧
    (reg vf t).toNat = (if (reg x s).toNat + (reg y s).toNat > 255 then 1 else 0) ∧
    t.pc = s.pc + 2 ∧ ChangesOnly (fun p => p = .reg x ∨ p = .reg vf ∨ p = .pc) s t

/-- The words of the two patterns are the two instructions; each completes in every state. 8XY5: V[X] = (V[X] - V[Y])
mod 256, VF = 1 exactly when V[X] >= V[Y]. 8XY7: V[X] = (V[Y] - V[X]) mod 256, VF = 1 exactly when V[Y] >= V[X]. With
X = 0xF the flag is what remains. pc moves by 2, nothing else changes. That sub-opcode 7 is the reversed subtraction
is the spec's decision D10. Follows R127, R129, R66, 92_eei_decisions.md D10. -/
def Obligations.SubtractionsSetVfToNotBorrow : Prop :=
  WordsDecodeTo 0xF00F 0x8005 (fun op => .subReg (fieldX op) (fieldY op)) ∧
  WordsDecodeTo 0xF00F 0x8007 (fun op => .subnReg (fieldX op) (fieldY op)) ∧
  ∀ (x y : Reg) (s : State),
    (∃ t, exec (.subReg x y) s = .next t ∧
      (x ≠ vf → (reg x t).toNat = ((reg x s).toNat + 256 - (reg y s).toNat) % 256) ∧
      (reg vf t).toNat = (if (reg x s).toNat ≥ (reg y s).toNat then 1 else 0) ∧
      t.pc = s.pc + 2 ∧ ChangesOnly (fun p => p = .reg x ∨ p = .reg vf ∨ p = .pc) s t) ∧
    (∃ t, exec (.subnReg x y) s = .next t ∧
      (x ≠ vf → (reg x t).toNat = ((reg y s).toNat + 256 - (reg x s).toNat) % 256) ∧
      (reg vf t).toNat = (if (reg y s).toNat ≥ (reg x s).toNat then 1 else 0) ∧
      t.pc = s.pc + 2 ∧ ChangesOnly (fun p => p = .reg x ∨ p = .reg vf ∨ p = .pc) s t)

/-- The words of the two patterns are the two instructions, for every Y; each completes in every state, whatever V[Y]
holds. 8XY6: V[X] = V[X] div 2, VF = old bit 0. 8XYE: V[X] = 2 V[X] mod 256, VF = old bit 7. With X = 0xF the flag is
what remains. pc moves by 2, nothing else changes. That V[X] and not V[Y] is shifted is the spec's decision D9, the
sub-opcodes 6 and 0xE its decision D10. Follows R128, R130, 92_eei_decisions.md D9, 92_eei_decisions.md D10. -/
def Obligations.ShiftsMoveVxByOneInPlace : Prop :=
  WordsDecodeTo 0xF00F 0x8006 (fun op => .shrReg (fieldX op) (fieldY op)) ∧
  WordsDecodeTo 0xF00F 0x800E (fun op => .shlReg (fieldX op) (fieldY op)) ∧
  ∀ (x y : Reg) (s : State),
    (∃ t, exec (.shrReg x y) s = .next t ∧ (x ≠ vf → (reg x t).toNat = (reg x s).toNat / 2) ∧
      (reg vf t).toNat = (reg x s).toNat % 2 ∧
      t.pc = s.pc + 2 ∧ ChangesOnly (fun p => p = .reg x ∨ p = .reg vf ∨ p = .pc) s t) ∧
    (∃ t, exec (.shlReg x y) s = .next t ∧ (x ≠ vf → (reg x t).toNat = (reg x s).toNat * 2 % 256) ∧
      (reg vf t).toNat = (reg x s).toNat / 128 ∧
      t.pc = s.pc + 2 ∧ ChangesOnly (fun p => p = .reg x ∨ p = .reg vf ∨ p = .pc) s t)

/-- For X not 0xF, over the integers, with values before and after the instruction: V[X] + V[Y] = V[X]' + 256 VF'
(8XY4); V[X] - V[Y] = V[X]' - 256 (1 - VF') (8XY5); V[Y] - V[X] = V[X]' - 256 (1 - VF') (8XY7). Follows R126, R127,
R129, R131. -/
def Obligations.ArithmeticIsExactOverTheIntegers : Prop :=
  ∀ (x y : Reg) (s t : State), x ≠ vf →
  (exec (.addReg x y) s = .next t →
    ((reg x s).toNat : Int) + (reg y s).toNat = (reg x t).toNat + 256 * (reg vf t).toNat) ∧
  (exec (.subReg x y) s = .next t →
    ((reg x s).toNat : Int) - (reg y s).toNat = (reg x t).toNat - 256 * (1 - (reg vf t).toNat)) ∧
  (exec (.subnReg x y) s = .next t →
    ((reg y s).toNat : Int) - (reg x s).toNat = (reg x t).toNat - 256 * (1 - (reg vf t).toNat))

/-- Over all instructions: the seven flag-writing ones leave 0 or 1 in VF; the ten with an ordinary destination V[X]
leave VF alone unless X is 0xF; every other instruction leaves VF alone. Follows R11. -/
def Obligations.VfIsWrittenOnlyAsFlagOrDestination : Prop :=
  ∀ (i : Instr) (s t : State), exec i s = .next t →
  match i with
  | .addReg _ _ | .subReg _ _ | .shrReg _ _ | .subnReg _ _ | .shlReg _ _ | .addIndex _ | .drw _ _ _ =>
    reg vf t = 0 ∨ reg vf t = 1
  | .ldByte x _ | .addByte x _ | .ldReg x _ | .orReg x _ | .andReg x _ | .xorReg x _ | .rnd x _
  | .ldRegDelay x | .ldRegKey x | .loadRegs x => x ≠ vf → reg vf t = reg vf s
  | _ => reg vf t = reg vf s

/-- The words of the pattern are the instruction; it completes in every state: V[X] is the free byte of this draw and
NN, so it has no bit set outside NN, the next draw is another one, pc moves by 2, nothing else changes. The byte is
uninterpreted (the spec's decision D13; assumption 1: the model's form of rng), so the statement holds for every draw.
Follows R133, R23, 92_eei_decisions.md D13. -/
def Obligations.RandomByteIsMasked : Prop :=
  WordsDecodeTo 0xF000 0xC000 (fun op => .rnd (fieldX op) (fieldNN op)) ∧
  ∀ (x : Reg) (nn : Byte) (s : State), ∃ t, exec (.rnd x nn) s = .next t ∧
    reg x t = Config.randomByte s.rng.seed s.rng.draws &&& nn ∧ reg x t &&& ~~~nn = 0 ∧
    t.rng.seed = s.rng.seed ∧ t.rng.draws = s.rng.draws + 1 ∧
    t.pc = s.pc + 2 ∧ ChangesOnly (fun p => p = .reg x ∨ p = .rng ∨ p = .pc) s t

/-- The words of the pattern are the instruction; it completes in every state with I = NNN as a number and pc moved by
2, and changes nothing else. Follows R140. -/
def Obligations.LoadIndexTakesTheAddress : Prop :=
  WordsDecodeTo 0xF000 0xA000 (fun op => .ldIndex (fieldNNN op)) ∧
  ∀ (nnn : Addr) (s : State), ∃ t, exec (.ldIndex nnn) s = .next t ∧ t.index.toNat = nnn.toNat ∧
    t.pc = s.pc + 2 ∧ ChangesOnly (fun p => p = .index ∨ p = .pc) s t

/-- The words of the pattern are the instruction; it completes in every state with I = 5 V[X] as a number, not masked
(the spec's decision D19), and pc moved by 2, and changes nothing else. Follows R142, 92_eei_decisions.md D19. -/
def Obligations.GlyphAddressIsFiveTimesVx : Prop :=
  WordsDecodeTo 0xF0FF 0xF029 (fun op => .ldGlyph (fieldX op)) ∧
  ∀ (x : Reg) (s : State), ∃ t, exec (.ldGlyph x) s = .next t ∧ t.index.toNat = 5 * (reg x s).toNat ∧
    t.pc = s.pc + 2 ∧ ChangesOnly (fun p => p = .index ∨ p = .pc) s t

/-- The words of the pattern are the instruction; it completes in every state with I = (I + V[X]) mod 65536 and VF = 1
exactly when I + V[X] exceeds 0x0FFF, both from the pre-state, X = 0xF included; pc moves by 2, nothing else changes.
The flag's reading is the spec's decision D18, its order D20. Follows R141, 92_eei_decisions.md D18,
92_eei_decisions.md D20. -/
def Obligations.AddToIndexFlagsSumsPast0FFF : Prop :=
  WordsDecodeTo 0xF0FF 0xF01E (fun op => .addIndex (fieldX op)) ∧
  ∀ (x : Reg) (s : State), ∃ t, exec (.addIndex x) s = .next t ∧
    t.index.toNat = (s.index.toNat + (reg x s).toNat) % 65536 ∧
    (reg vf t).toNat = (if s.index.toNat + (reg x s).toNat > 0x0FFF then 1 else 0) ∧
    t.pc = s.pc + 2 ∧ ChangesOnly (fun p => p = .index ∨ p = .reg vf ∨ p = .pc) s t

/-- The words of the pattern are the instruction. With 0x200 <= I and I + 2 <= 0xFFF it completes: the three bytes are
digits 0 to 9 with 100 b0 + 10 b1 + b2 = V[X]; pc moves by 2; no other byte and nothing else changes. With I < 0x200
it faults with PROTECT and I (the spec's decision D6); otherwise, with I + 2 > 0xFFF, with WRITE and max(I, 0x1000)
(D5). Follows R143, R48, 92_eei_decisions.md D5, 92_eei_decisions.md D6. -/
def Obligations.BcdStoresThreeDigits : Prop :=
  WordsDecodeTo 0xF0FF 0xF033 (fun op => .ldBcd (fieldX op)) ∧
  ∀ (x : Reg) (s : State),
    (0x200 ≤ effAddr 0 s → effAddr 2 s ≤ 0xFFF → ∃ t, exec (.ldBcd x) s = .next t ∧
      100 * (readByte (effAddr 0 s) t).toNat + 10 * (readByte (effAddr 1 s) t).toNat +
        (readByte (effAddr 2 s) t).toNat = (reg x s).toNat ∧
      (readByte (effAddr 0 s) t).toNat ≤ 9 ∧ (readByte (effAddr 1 s) t).toNat ≤ 9 ∧
      (readByte (effAddr 2 s) t).toNat ≤ 9 ∧ t.pc = s.pc + 2 ∧
      ChangesOnly (fun p => p = .byte (effAddr 0 s) ∨ p = .byte (effAddr 1 s) ∨ p = .byte (effAddr 2 s) ∨ p = .pc)
        s t) ∧
    (effAddr 0 s < 0x200 → exec (.ldBcd x) s = .fault (.memoryAddressOutOfRange .protect (effAddr 0 s))) ∧
    (0x200 ≤ effAddr 0 s → effAddr 2 s > 0xFFF →
      exec (.ldBcd x) s = .fault (.memoryAddressOutOfRange .write (max (effAddr 0 s) 0x1000)))

/-- The words of the pattern are the instruction. With 0x200 <= I and I + X <= 0xFFF it completes: byte I + r is V[r]
for every r up to X, I = (I + X + 1) mod 65536, pc moves by 2; no other byte and nothing else changes. With I < 0x200
it faults with PROTECT and I (the spec's decision D6); otherwise, with I + X > 0xFFF, with WRITE and max(I, 0x1000)
(D5). Follows R144, R48, R45, 92_eei_decisions.md D5, 92_eei_decisions.md D6. -/
def Obligations.StoreRegistersWritesTheRange : Prop :=
  WordsDecodeTo 0xF0FF 0xF055 (fun op => .storeRegs (fieldX op)) ∧
  ∀ (x : Reg) (s : State),
    (0x200 ≤ effAddr 0 s → effAddr x.val s ≤ 0xFFF → ∃ t, exec (.storeRegs x) s = .next t ∧
      (∀ r : Reg, r.val ≤ x.val → readByte (effAddr r.val s) t = reg r s) ∧
      t.index.toNat = (s.index.toNat + x.val + 1) % 65536 ∧ t.pc = s.pc + 2 ∧
      ChangesOnly (fun p => (∃ r : Reg, r.val ≤ x.val ∧ p = .byte (effAddr r.val s)) ∨ p = .index ∨ p = .pc) s t) ∧
    (effAddr 0 s < 0x200 → exec (.storeRegs x) s = .fault (.memoryAddressOutOfRange .protect (effAddr 0 s))) ∧
    (0x200 ≤ effAddr 0 s → effAddr x.val s > 0xFFF →
      exec (.storeRegs x) s = .fault (.memoryAddressOutOfRange .write (max (effAddr 0 s) 0x1000)))

/-- The words of the pattern are the instruction. With I + X <= 0xFFF it completes: V[r] is byte I + r for every r up
to X, I = (I + X + 1) mod 65536, pc moves by 2; the registers above V[X], memory and everything else are unchanged.
With I + X > 0xFFF it faults with READ and max(I, 0x1000) (the spec's decision D5). Follows R145, R47,
92_eei_decisions.md D5. -/
def Obligations.LoadRegistersReadsTheRange : Prop :=
  WordsDecodeTo 0xF0FF 0xF065 (fun op => .loadRegs (fieldX op)) ∧
  ∀ (x : Reg) (s : State),
    (effAddr x.val s ≤ 0xFFF → ∃ t, exec (.loadRegs x) s = .next t ∧
      (∀ r : Reg, r.val ≤ x.val → reg r t = readByte (effAddr r.val s) s) ∧
      t.index.toNat = (s.index.toNat + x.val + 1) % 65536 ∧ t.pc = s.pc + 2 ∧
      ChangesOnly (fun p => (∃ r : Reg, r.val ≤ x.val ∧ p = .reg r) ∨ p = .index ∨ p = .pc) s t) ∧
    (effAddr x.val s > 0xFFF →
      exec (.loadRegs x) s = .fault (.memoryAddressOutOfRange .read (max (effAddr 0 s) 0x1000)))

/-- If an FX55 completes from s to t and u is any state with I as it was in s and the memory of t, whatever its
registers, then FX65 with the same X completes from u, V[0] to V[X] end as they were in s, and each of the two
instructions adds X + 1 to I (mod 65536). Follows R147. -/
def Obligations.StoreThenLoadGivesTheRegistersBack : Prop :=
  ∀ (x : Reg) (s t u : State), exec (.storeRegs x) s = .next t → u.index = s.index →
  (∀ a, readByte a u = readByte a t) →
    ∃ w, exec (.loadRegs x) u = .next w ∧ (∀ r : Reg, r.val ≤ x.val → reg r w = reg r s) ∧
      t.index.toNat = (s.index.toNat + x.val + 1) % 65536 ∧
      w.index.toNat = (u.index.toNat + x.val + 1) % 65536

/-- If an FX55 completes and a later state with its memory has pc at the byte of V[a], the word fetched there is V[a]
* 256 + V[a + 1] of the storing state, for every a + 1 up to X: fetch reads the array the stores write. Follows R56,
R45, R44. -/
def Obligations.StoredBytesAreTheNextInstruction : Prop :=
  ∀ (x a b : Reg) (s t u : State), exec (.storeRegs x) s = .next t → b.val = a.val + 1 → b.val ≤ x.val →
  u.memory = t.memory → u.pc.toNat = effAddr a.val s →
    ∃ op, fetch u = .ok op ∧ op.toNat = (reg a s).toNat * 256 + (reg b s).toNat

/-- The word 0x00E0 is the instruction; it completes in every state: all 2048 pixels are 0, draw_flag is 1, pc moves
by 2, and nothing else changes, VF included. Follows R150. -/
def Obligations.ClearDisplayClearsEveryPixel : Prop :=
  WordsDecodeTo 0xFFFF 0x00E0 (fun _ => .cls) ∧
  ∀ s : State, ∃ t, exec .cls s = .next t ∧ (∀ x y, pixel x y t = false) ∧ t.drawFlag = true ∧
    t.pc = s.pc + 2 ∧ ChangesOnly (fun p => (∃ x y, p = .pixel x y) ∨ p = .drawFlag ∨ p = .pc) s t

/-- The words of the pattern are the instruction. When N = 0 or I + N - 1 <= 0xFFF it completes: for r < N and c < 8
the pixel at column (V[X] + c) mod 64 and row (V[Y] + r) mod 32 is its old value xor bit 7 - c of byte I + r; every
other pixel, I, and every register but VF are unchanged; VF is 1 exactly when a set bit met a lit pixel of the
pre-state, else 0; draw_flag = 1; pc moves by 2. When N > 0 and I + N - 1 > 0xFFF it faults with READ and max(I,
0x1000). Rests on the spec's decisions D5 (fault), D7 (wrap), D8 (bit order) and D20 (coordinates before VF). Follows
R151, R152, R153, R154, 92_eei_decisions.md D5, 92_eei_decisions.md D7, 92_eei_decisions.md D8, 92_eei_decisions.md
D20. -/
def Obligations.DrawSpriteXorsItsPixels : Prop :=
  WordsDecodeTo 0xF000 0xD000 (fun op => .drw (fieldX op) (fieldY op) (fieldN op)) ∧
  ∀ (x y : Reg) (n : Nibble) (s : State),
    let col : Nat → Fin 64 := fun c => Fin.ofNat 64 ((reg x s).toNat + c)
    let row : Nat → Fin 32 := fun r => Fin.ofNat 32 ((reg y s).toNat + r)
    let bit : Nat → Nat → Bool := fun r c => (readByte (effAddr r s) s).getLsbD (7 - c)
    let hit : Prop := ∃ r < n.toNat, ∃ c < 8, bit r c = true ∧ pixel (col c) (row r) s = true
    (n.toNat = 0 ∨ effAddr (n.toNat - 1) s ≤ 0xFFF → ∃ t, exec (.drw x y n) s = .next t ∧
      (∀ r < n.toNat, ∀ c < 8, pixel (col c) (row r) t = (pixel (col c) (row r) s ^^ bit r c)) ∧
      (hit → reg vf t = 1) ∧ (¬ hit → reg vf t = 0) ∧ t.drawFlag = true ∧ t.pc = s.pc + 2 ∧
      ChangesOnly (fun p => (∃ r < n.toNat, ∃ c < 8, p = .pixel (col c) (row r)) ∨
        p = .reg vf ∨ p = .drawFlag ∨ p = .pc) s t) ∧
    (n.toNat > 0 → effAddr (n.toNat - 1) s > 0xFFF →
      exec (.drw x y n) s = .fault (.memoryAddressOutOfRange .read (max (effAddr 0 s) 0x1000)))

/-- For X and Y not 0xF: if DXYN completes from s to t, it completes again from t, the display is then again that of
s, and VF ends as 1 exactly when some set sprite bit lands on a pixel that was off in s. With X or Y = 0xF the second
draw takes a coordinate from the flag the first one wrote, so nothing of this kind holds there;
DrawSpriteXorsItsPixels covers each single draw of those forms. Rests on the spec's decisions D7 and D8. Follows R153,
R151, R152, 92_eei_decisions.md D7, 92_eei_decisions.md D8. -/
def Obligations.DrawingTwiceRestoresTheDisplay : Prop :=
  ∀ (x y : Reg) (n : Nibble) (s t : State), x ≠ vf → y ≠ vf → exec (.drw x y n) s = .next t →
  ∃ u, exec (.drw x y n) t = .next u ∧ u.display = s.display ∧
    (reg vf u = 1 ↔ ∃ r < n.toNat, ∃ c < 8, (readByte (effAddr r s) s).getLsbD (7 - c) = true ∧
      pixel (Fin.ofNat 64 ((reg x s).toNat + c)) (Fin.ofNat 32 ((reg y s).toNat + r)) s = false)

/-- The words of the three patterns are the three instructions; each completes in every state, its execute step makes
the one copy (FX07 the value before this cycle's tick), moves pc by 2, and changes nothing else. Follows R160, R161,
R162. -/
def Obligations.TimerInstructionsMoveOneByte : Prop :=
  WordsDecodeTo 0xF0FF 0xF007 (fun op => .ldRegDelay (fieldX op)) ∧
  WordsDecodeTo 0xF0FF 0xF015 (fun op => .ldDelayReg (fieldX op)) ∧
  WordsDecodeTo 0xF0FF 0xF018 (fun op => .ldSoundReg (fieldX op)) ∧
  ∀ (x : Reg) (s : State),
    (∃ t, exec (.ldRegDelay x) s = .next t ∧ reg x t = s.delayTimer ∧ t.pc = s.pc + 2 ∧
      ChangesOnly (fun p => p = .reg x ∨ p = .pc) s t) ∧
    (∃ t, exec (.ldDelayReg x) s = .next t ∧ t.delayTimer = reg x s ∧ t.pc = s.pc + 2 ∧
      ChangesOnly (fun p => p = .delayTimer ∨ p = .pc) s t) ∧
    (∃ t, exec (.ldSoundReg x) s = .next t ∧ t.soundTimer = reg x s ∧ t.pc = s.pc + 2 ∧
      ChangesOnly (fun p => p = .soundTimer ∨ p = .pc) s t)

/-- At the end of an FX15 cycle dt is V[X] - 1, or 0 when V[X] is 0; likewise st after FX18. If k further completed
cycles with no FX15 among them lead to an FX07 on V[Y], that FX07 completes and V[Y] is V[X] of the FX15 minus k + 1,
or 0 if that is negative: the FX07 is the (k + 1)-th cycle after the FX15. After an FX18 cycle and k further completed
cycles with no FX18 among them, sound_active is 1 exactly when V[X] of the FX18 exceeds k + 1: at the end of the FX18
cycle itself (k = 0) exactly when V[X] > 1. That waiting and unknown-opcode cycles count, and a fault does not, is the
spec's decision D1. Follows R164, R161, R162, R184, R86, R87, 92_eei_decisions.md D1. -/
def Obligations.LoadedTimersCountDownCycleByCycle : Prop :=
  ∀ (x y : Reg) (s a : State) (op : Word), fetch s = .ok op → step s = .next a →
  (decodeWord op = .ok (.ldSoundReg x) →
    a.soundTimer.toNat = (reg x s).toNat - 1 ∧
    ∀ (k : Nat) (u : State), CyclesWithout (fun i => ∃ z, i = .ldSoundReg z) k a u →
      (soundActive u = true ↔ (reg x s).toNat > k + 1)) ∧
  (decodeWord op = .ok (.ldDelayReg x) →
    a.delayTimer.toNat = (reg x s).toNat - 1 ∧
    ∀ (k : Nat) (u : State) (op' : Word), CyclesWithout (fun i => ∃ z, i = .ldDelayReg z) k a u →
      fetch u = .ok op' → decodeWord op' = .ok (.ldRegDelay y) →
        ∃ w, step u = .next w ∧ (reg y w).toNat = (reg x s).toNat - (k + 1))

/-- The words of the pattern are the instruction. With some key pressed it completes: V[X] is the least pressed index,
pc moves by 2, nothing else changes. With none pressed its execute step changes nothing, pc included, and the cycle
reports WAIT_KEY. Level-sensitive and lowest-first by the spec's decision D11. Follows R163, R165, 92_eei_decisions.md
D11. -/
def Obligations.KeyWaitTakesTheLowestPressedKey : Prop :=
  WordsDecodeTo 0xF0FF 0xF00A (fun op => .ldRegKey (fieldX op)) ∧
  ∀ (x : Reg) (s : State),
    (∀ k : Key, keyDown k s = true → (∀ j < k, keyDown j s = false) →
      ∃ t, exec (.ldRegKey x) s = .next t ∧ (reg x t).toNat = k.val ∧ t.pc = s.pc + 2 ∧
        ChangesOnly (fun p => p = .reg x ∨ p = .pc) s t) ∧
    ((∀ k, keyDown k s = false) →
      exec (.ldRegKey x) s = .next s ∧
      (fetch s = .ok (encode (.ldRegKey x)) → ∃ t, cycle s = .ok (t, .waitKey) ∧ t.pc = s.pc))

/-- Over all instructions: an execute step that completes leaves every stack entry alone unless the instruction is
2NNN, and sp alone unless it is 2NNN or 00EE. That a popped entry keeps its value is derived by the spec itself (R14).
Follows R14, R15, R42. -/
def Obligations.OnlyCallAndReturnTouchTheStack : Prop :=
  ∀ (i : Instr) (s t : State), exec i s = .next t →
  ((∀ nnn, i ≠ .call nnn) → ∀ k : Fin 16, t.stack[k] = s.stack[k]) ∧
  ((∀ nnn, i ≠ .call nnn) → i ≠ .ret → t.sp = s.sp)

/-- Over all instructions: an execute step that completes leaves every pixel and draw_flag alone unless the
instruction is 00E0 or DXYN, which leave draw_flag at 1; so a completed cycle never turns draw_flag from 1 to 0.
Follows R20, R19, R154. -/
def Obligations.OnlyDisplayInstructionsTouchTheDisplay : Prop :=
  (∀ (i : Instr) (s t : State), exec i s = .next t →
    (i = .cls ∨ (∃ x y n, i = .drw x y n) → t.drawFlag = true) ∧
    (i ≠ .cls → (∀ x y n, i ≠ .drw x y n) → t.drawFlag = s.drawFlag ∧ ∀ x y, pixel x y t = pixel x y s)) ∧
  ∀ s t : State, step s = .next t → s.drawFlag = true → t.drawFlag = true

/-- Over all instructions, an execute step that completes writes no key state; the delay timer only in FX15, the sound
timer only in FX18, the random source only in CXNN, and I only in ANNN, FX1E, FX29, FX55, FX65. Writes only: of the
stack OnlyCallAndReturnTouchTheStack speaks, of the display OnlyDisplayInstructionsTouchTheDisplay, of memory
OnlyStoresWriteMemory, and of reads SpacesAreReadOnlyByTheirInstructions. The timer tick is no part of the execute
step. Follows R42, R12, R16, R17, R18, R23. -/
def Obligations.KeysTimersRngAndIndexAreWrittenOnlyByTheirInstructions : Prop :=
  ∀ (i : Instr) (s t : State), exec i s = .next t →
  (∀ k, keyDown k t = keyDown k s) ∧
  ((∀ x, i ≠ .ldDelayReg x) → t.delayTimer = s.delayTimer) ∧
  ((∀ x, i ≠ .ldSoundReg x) → t.soundTimer = s.soundTimer) ∧
  ((∀ x nn, i ≠ .rnd x nn) → t.rng = s.rng) ∧
  ((∀ nnn, i ≠ .ldIndex nnn) → (∀ x, i ≠ .addIndex x) → (∀ x, i ≠ .ldGlyph x) → (∀ x, i ≠ .storeRegs x) →
    (∀ x, i ≠ .loadRegs x) → t.index = s.index)

/-- Over all instructions: an execute step that completes leaves every byte of memory alone unless the instruction is
FX33 or FX55. Follows R43. -/
def Obligations.OnlyStoresWriteMemory : Prop :=
  ∀ (i : Instr) (s t : State), exec i s = .next t → (∀ x, i ≠ .ldBcd x) → (∀ x, i ≠ .storeRegs x) →
  ∀ a, readByte a t = readByte a s

/-- In every completed cycle every byte at an address below 0x200 reads as before, in every state, whatever I holds.
Enforced by a fault, the spec's decision D6. Follows R48, R21, 92_eei_decisions.md D6. -/
def Obligations.NoCycleWritesBelow0200 : Prop :=
  ∀ s t : State, step s = .next t → ∀ a < 0x200, readByte a t = readByte a s

/-- From every state that meets the invariant (memory in canonical form and listing nothing outside 0x200 to 0xFFF, pc
at most 0x10FE, every stack entry in use at most 0x1000), a completed cycle gives a state that meets it. The bounds
are derived by the spec itself (R220); the canonical form is the model's own (assumption 9). Follows R220, R48, R41.
-/
def Obligations.InvariantIsKeptByEveryCycle : Prop :=
  ∀ s t : State, StateInv s → step s = .next t → StateInv t

/-- After a reset with any seed the memory is canonical and lists nothing, pc is 0x200 and no stack entry is in use,
so the invariant holds. The invariant is the model's (R220, assumption 9). Follows R220, R26. -/
def Obligations.InvariantHoldsAfterReset : Prop :=
  ∀ seed : Nat, StateInv (State.resetWith seed)

/-- From every state that meets the invariant, each host move (reset, load of any bytes, cycle, key write, draw_ack)
gives a state that meets it, a faulting cycle and a load that is too long included. One move;
AnyHostMovesAfterResetKeepTheInvariant is its closure over lists of moves. The spec derives the bounds (R220); the
canonical form is the model's own (assumption 9); that the host has these moves and no other is the spec's decision
D22 (assumption 6). Follows R220, R186, R187, R203, 92_eei_decisions.md D22. -/
def Obligations.InvariantIsKeptByEveryHostMove : Prop :=
  ∀ (m : HostMove) (s t : State) (r : HostReply), StateInv s → hostMoveAfterReset m s = .ok (t, r) → StateInv t

/-- If the memories of two states are in canonical form and the states agree at every register, entry, byte, key,
pixel and other place, they are the same data: the canonical form makes equal memories equal lists. The form is the
model's own (assumption 9). Follows R24, R21. -/
def Obligations.StatesAreDeterminedByTheirPlaces : Prop :=
  ∀ s t : State, s.memory.wf → t.memory.wf → (∀ p, sameAt p s t) → t = s

/-- A state whose word at pc is 1NNN with NNN = pc gives a completed cycle with outcome OK that changes only the
timers, each down by one (0 stays 0), and ends in a terminal state again. The definition is the spec's decision D25.
Follows R219, 92_eei_decisions.md D25. -/
def Obligations.TerminalStateOnlyCountsDown : Prop :=
  ∀ s : State, Terminal s → ∃ t, step s = .next t ∧ cycle s = .ok (t, .ok) ∧ Terminal t ∧
  t.delayTimer.toNat = s.delayTimer.toNat - 1 ∧ t.soundTimer.toNat = s.soundTimer.toNat - 1 ∧
  ChangesOnly (fun p => p = .delayTimer ∨ p = .soundTimer) s t

/-- For every seed: registers, I, sp, stack, timers, keys and pixels 0, pc 0x200, memory FONT[0..79] at 0x000 to 0x04F
and 0 up to 0xFFF, draw_flag 1 (the spec's decision D14, assumption 3). The font is 80 bytes, taken as the
configuration field (assumption 2). Follows R26, R200, 92_eei_decisions.md D14, 92_eei_decisions.md D21. -/
def Obligations.ResetWritesEveryElement : Prop :=
  Config.font.length = 80 ∧ ∀ seed : Nat,
  (∀ r, reg r (State.resetWith seed) = 0) ∧ (State.resetWith seed).index = 0 ∧
  (State.resetWith seed).pc = 0x200 ∧ (State.resetWith seed).sp = 0 ∧
  (∀ k : Fin 16, (State.resetWith seed).stack[k] = 0) ∧
  (State.resetWith seed).delayTimer = 0 ∧ (State.resetWith seed).soundTimer = 0 ∧
  (∀ a < 0x50, readByte a (State.resetWith seed) = Config.font.getD a 0) ∧
  (∀ a, 0x50 ≤ a → a ≤ 0xFFF → readByte a (State.resetWith seed) = 0) ∧
  (∀ k, keyDown k (State.resetWith seed) = false) ∧ (∀ x y, pixel x y (State.resetWith seed) = false) ∧
  (State.resetWith seed).drawFlag = true

/-- From the state after reset, for every seed, the first cycle completes, reports UNKNOWN_OPCODE(0x0000), and pc is
0x202. Derived by the spec itself (R202). Follows R202. -/
def Obligations.EmptyMachineSkipsTheZeroWord : Prop :=
  ∀ seed : Nat, ∃ t, step (State.resetWith seed) = .next t ∧
  cycle (State.resetWith seed) = .ok (t, .unknownOpcode 0x0000) ∧ t.pc = 0x202

/-- For every byte list and state: with at most 3584 bytes the result is success, byte i of the list is at 0x200 + i,
and every other byte and every other place is unchanged; with more the result is RomTooLarge and the state is
unchanged. That a load into a state that is not fresh from reset is this copy and nothing else is the spec's decision
D24. Follows R203, R221, 92_eei_decisions.md D24. -/
def Obligations.LoaderCopiesTheProgram : Prop :=
  ∀ (bytes : List Byte) (s : State),
  (bytes.length ≤ 3584 →
    (load bytes s).2 = .success ∧
    (∀ k < bytes.length, readByte (0x200 + k) (load bytes s).1 = bytes.getD k 0) ∧
    ChangesOnly (fun p => ∃ k < bytes.length, p = .byte (0x200 + k)) s (load bytes s).1) ∧
  (bytes.length > 3584 → load bytes s = (s, .romTooLarge))

/-- For every seed and every program of 2 to 3584 bytes the launch succeeds, pc is 0x200, the first word fetched is
bytes[0] * 256 + bytes[1], and the launched state meets the invariant (the model's, assumption 9). Follows R205, R206,
R202. -/
def Obligations.LaunchedProgramStartsWithItsFirstWord : Prop :=
  ∀ (seed : Nat) (b0 b1 : Byte) (rest : List Byte), rest.length ≤ 3582 →
  ∃ s op, launch seed (b0 :: b1 :: rest) = some s ∧ s.pc = 0x200 ∧ fetch s = .ok op ∧
    op.toNat = b0.toNat * 256 + b1.toNat ∧ StateInv s

/-- For every state: writing key k leaves it at the written value and every other place alone; draw_ack leaves
draw_flag at 0 and every other place alone. Follows R185, R189, R187. -/
def Obligations.HostWritesTouchOnlyTheirOwn : Prop :=
  ∀ (k : Key) (down : Bool) (s : State),
  keyDown k (writeKey k down s) = down ∧ ChangesOnly (fun p => p = .key k) s (writeKey k down s) ∧
  (drawAck s).drawFlag = false ∧ ChangesOnly (fun p => p = .drawFlag) s (drawAck s)

/-- On the machine no reset has produced, reset gives the reset state and every other move is refused; on a machine
that has been reset, reset gives the same state whatever it was, for the same seed. The refusal is the spec's decision
D23 (and assumption 5: the model's own for key writes and draw_ack). That equal seeds give equal states, rng included,
rests on the model's form of rng (assumption 1): R201 excepts rng. Follows R27, R207, R201, 92_eei_decisions.md D23.
-/
def Obligations.OnlyResetWorksBeforeTheFirstReset : Prop :=
  ∀ (m : HostMove) (seed : Nat),
  ((∀ e, m ≠ .reset e) → hostMove m none = .error .beforeFirstReset) ∧
  hostMove (.reset seed) none = .ok (State.resetWith seed, .silent) ∧
  ∀ s : State, hostMove (.reset seed) (some s) = hostMove (.reset seed) none

/-- For every state the output bit at linear index y * 64 + x is pixel (x, y), for every column x below 64 and row y
below 32; after 00E0 all 2048 output bits are 0; an execute step of any instruction but 00E0 and DXYN that completes
leaves every output bit as it was. One bit per pixel is the spec's decision D28, the output's name and width its
decision D22. Follows R19, R186, R150, 92_eei_decisions.md D22, 92_eei_decisions.md D28. -/
def Obligations.DisplayOutputIsRowMajor : Prop :=
  (∀ (s : State) (x : Fin 64) (y : Fin 32) (k : Fin 2048), k.val = y.val * 64 + x.val →
    displayBit k s = pixel x y s) ∧
  (∀ s t : State, exec .cls s = .next t → ∀ k, displayBit k t = false) ∧
  ∀ (i : Instr) (s t : State), exec i s = .next t → i ≠ .cls → (∀ x y n, i ≠ .drw x y n) →
    ∀ k, displayBit k t = displayBit k s

/-- Over all instructions and states: with other key states every instruction but EX9E, EXA1 and FX0A does the same to
everything but the keys, the same fault included; likewise with another delay timer all but FX07, another sound timer
all, another draw_flag all, another display all but DXYN, another random source all but CXNN, other stack entries all
but 00EE, another sp all but 2NNN and 00EE. The random source is taken in the model's form (assumption 1). Follows
R42, R14, R16, R17, R18, R19, R20, R23. -/
def Obligations.SpacesAreReadOnlyByTheirInstructions : Prop :=
  ∀ (i : Instr) (s : State),
  (∀ keys : Vector Bool 16, (∀ x, i ≠ .skp x) → (∀ x, i ≠ .sknp x) → (∀ x, i ≠ .ldRegKey x) →
    AgreeOutside (fun p => ∃ k, p = .key k) (exec i s) (exec i { s with keyboard := keys })) ∧
  (∀ b : Byte, (∀ x, i ≠ .ldRegDelay x) →
    AgreeOutside (fun p => p = .delayTimer) (exec i s) (exec i { s with delayTimer := b })) ∧
  (∀ b : Byte, AgreeOutside (fun p => p = .soundTimer) (exec i s) (exec i { s with soundTimer := b })) ∧
  (∀ f : Bool, AgreeOutside (fun p => p = .drawFlag) (exec i s) (exec i { s with drawFlag := f })) ∧
  (∀ d : Display, (∀ x y n, i ≠ .drw x y n) →
    AgreeOutside (fun p => ∃ x y, p = .pixel x y) (exec i s) (exec i { s with display := d })) ∧
  (∀ g : Rng, (∀ x nn, i ≠ .rnd x nn) → AgreeOutside (fun p => p = .rng) (exec i s) (exec i { s with rng := g })) ∧
  (∀ entries : Vector Word 16, i ≠ .ret →
    AgreeOutside (fun p => ∃ k, p = .stack k) (exec i s) (exec i { s with stack := entries })) ∧
  (∀ n : Fin 17, (∀ nnn, i ≠ .call nnn) → i ≠ .ret →
    AgreeOutside (fun p => p = .sp) (exec i s) (exec i { s with sp := n }))

/-- From the machine no reset has produced: a reset with any seed followed by any list of host moves is refused
nowhere and ends in a state that meets the invariant. The spec derives the bounds (R220); the canonical form is the
model's own (assumption 9); that the host has these moves and no other is the spec's decision D22 (assumption 6).
Follows R220, R186, R187, R200, R203, 92_eei_decisions.md D22. -/
def Obligations.AnyHostMovesAfterResetKeepTheInvariant : Prop :=
  ∀ (seed : Nat) (moves : List HostMove),
  ∃ s, hostMoves (.reset seed :: moves) none = .ok (some s) ∧ StateInv s
end

