-- ==== Sys2Proof/Laws/Decode.lean ====
section
/-! SUPPORT. The fields of a word as numbers, the fields of an encoded word, and the three masks of the opcode map
(30_encoding.md R61, R69). -/

namespace Sys2Proof

theorem fieldT_toNat (op : Word) : (fieldT op).toNat = op.toNat / 0x1000 := by
  simp [fieldT, BitVec.extractLsb'_toNat, Nat.shiftRight_eq_div_pow]; omega

theorem fieldX_val (op : Word) : (fieldX op).val = op.toNat / 0x100 % 0x10 := by
  simp [fieldX, BitVec.extractLsb'_toNat, Nat.shiftRight_eq_div_pow, Fin.ofNat]

theorem fieldY_val (op : Word) : (fieldY op).val = op.toNat / 0x10 % 0x10 := by
  simp [fieldY, BitVec.extractLsb'_toNat, Nat.shiftRight_eq_div_pow, Fin.ofNat]

theorem fieldN_toNat (op : Word) : (fieldN op).toNat = op.toNat % 0x10 := by
  simp [fieldN, BitVec.extractLsb'_toNat]

theorem fieldNN_toNat (op : Word) : (fieldNN op).toNat = op.toNat % 0x100 := by
  simp [fieldNN, BitVec.extractLsb'_toNat]

theorem fieldNNN_toNat (op : Word) : (fieldNNN op).toNat = op.toNat % 0x1000 := by
  simp [fieldNNN, BitVec.extractLsb'_toNat]

theorem highByte_toNat (op : Word) : (highByte op).toNat = op.toNat / 0x100 := by
  simp [highByte, BitVec.extractLsb'_toNat, Nat.shiftRight_eq_div_pow]; omega

theorem lowByte_toNat (op : Word) : (lowByte op).toNat = op.toNat % 0x100 := by
  simp [lowByte, BitVec.extractLsb'_toNat]

theorem wordOfBytes_toNat (hi lo : Byte) : (wordOfBytes hi lo).toNat = hi.toNat * 256 + lo.toNat := by
  simp [wordOfBytes]; omega

/-- Laying a word out in memory and fetching it again gives the word (20_memory.md R44). -/
@[simp] theorem wordOfBytes_highByte_lowByte (op : Word) : wordOfBytes (highByte op) (lowByte op) = op := by
  apply BitVec.eq_of_toNat_eq
  rw [wordOfBytes_toNat, highByte_toNat, lowByte_toNat]
  omega

theorem encodeNNN_toNat {base : Nat} (nnn : Addr) (h : base ≤ 0xF000) :
    (encodeNNN base nnn).toNat = base + nnn.toNat := by
  have := nnn.isLt; simp [encodeNNN]; omega

theorem encodeXNN_toNat {base : Nat} (x : Reg) (nn : Byte) (h : base ≤ 0xF000) :
    (encodeXNN base x nn).toNat = base + x.val * 0x100 + nn.toNat := by
  simp [encodeXNN]; omega

theorem encodeXYN_toNat {base : Nat} (x y : Reg) {n : Nat} (h : base ≤ 0xF000) (hn : n < 0x10) :
    (encodeXYN base x y n).toNat = base + x.val * 0x100 + y.val * 0x10 + n := by
  simp [encodeXYN]; omega

theorem encodeXKK_toNat {base : Nat} (x : Reg) (h : base ≤ 0xF0FF) :
    (encodeXKK base x).toNat = base + x.val * 0x100 := by
  simp [encodeXKK]; omega

theorem testBit_top_mask (n j : Nat) (hn : n < 0x10000) :
    (n / 0x1000).testBit j = (n.testBit (j + 12) && decide (j < 4)) := by
  have h : (n / 2 ^ 12).testBit j = n.testBit (j + 12) := by rw [Nat.testBit_div_two_pow, Nat.add_comm]
  rw [show (0x1000 : Nat) = 2 ^ 12 from rfl, h]
  by_cases hj : j < 4
  · simp [hj]
  · have : n.testBit (j + 12) = false :=
      Nat.testBit_lt_two_pow (lt_of_lt_of_le hn (Nat.pow_le_pow_right (show 2 > 0 by omega) (show 16 ≤ j + 12 by omega)))
    simp [this]

/-- A mask of the opcode map keeps the top nibble and the low `k` bits (k = 0, 4, 8). -/
theorem and_mask (n k : Nat) (hn : n < 0x10000) (hk : k ≤ 12) :
    n &&& (0xF000 + (2 ^ k - 1)) = n / 0x1000 * 0x1000 + n % 2 ^ k := by
  apply Nat.eq_of_testBit_eq
  intro j
  have hlow : 2 ^ k - 1 < 2 ^ 12 :=
    lt_of_lt_of_le (Nat.sub_lt (Nat.two_pow_pos k) Nat.one_pos) (Nat.pow_le_pow_right (by omega) hk)
  have hmod : n % 2 ^ k < 2 ^ 12 :=
    lt_of_lt_of_le (Nat.mod_lt _ (Nat.two_pow_pos k)) (Nat.pow_le_pow_right (by omega) hk)
  have e1 : 0xF000 + (2 ^ k - 1) = 2 ^ 12 * (2 ^ 4 - 1) + (2 ^ k - 1) := by norm_num
  have e2 : n / 0x1000 * 0x1000 + n % 2 ^ k = 2 ^ 12 * (n / 0x1000) + n % 2 ^ k := by norm_num; omega
  rw [Nat.testBit_and, e1, e2, Nat.testBit_two_pow_mul_add _ hlow, Nat.testBit_two_pow_mul_add _ hmod]
  by_cases hj : j < 12
  · simp only [hj, if_true, Nat.testBit_two_pow_sub_one, Nat.testBit_mod_two_pow, Bool.and_comm]
  · have hj' : j - 12 + 12 = j := by omega
    simp only [hj, if_false, Nat.testBit_two_pow_sub_one, testBit_top_mask _ _ hn, hj']

theorem and_F000_toNat (op : Word) : (op &&& 0xF000).toNat = op.toNat / 0x1000 * 0x1000 := by
  have := and_mask op.toNat 0 op.isLt (by omega)
  simpa [Nat.mod_one] using this

theorem and_F00F_toNat (op : Word) : (op &&& 0xF00F).toNat = op.toNat / 0x1000 * 0x1000 + op.toNat % 0x10 := by
  have := and_mask op.toNat 4 op.isLt (by omega)
  simpa using this

theorem and_F0FF_toNat (op : Word) : (op &&& 0xF0FF).toNat = op.toNat / 0x1000 * 0x1000 + op.toNat % 0x100 := by
  have := and_mask op.toNat 8 op.isLt (by omega)
  simpa using this

theorem and_FFFF (op : Word) : op &&& 0xFFFF = op := BitVec.and_allOnes

end Sys2Proof
end

