-- ==== Sys2Proof/Laws/Display.lean ====
section
/-! SUPPORT. What flipping a pixel, drawing a sprite row and drawing a sprite do to the framebuffer and to the collision
found (45_display.md R151 to R153). -/

namespace Sys2Proof.Machine

theorem pixelOf_flipPixel (d : Display) (x x' : Fin 64) (y y' : Fin 32) :
    pixelOf (flipPixel d x y) x' y' = if x' = x ∧ y' = y then !pixelOf d x y else pixelOf d x' y' := by
  unfold pixelOf flipPixel
  by_cases hy : y' = y
  · subst hy
    by_cases hx : x' = x
    · subst hx; simp
    · have hv : x.val ≠ x'.val := fun e => hx (Fin.ext e.symm)
      simp [hx, Vector.getElem_set_ne _ _ hv]
  · have hv : y.val ≠ y'.val := fun e => hy (Fin.ext e.symm)
    simp [hy, Vector.getElem_set_ne _ _ hv]

@[simp] theorem pixelOf_blankDisplay (x : Fin 64) (y : Fin 32) : pixelOf blankDisplay x y = false := by
  simp [pixelOf, blankDisplay]

/-- Two framebuffers with the same pixels are the same. -/
theorem display_ext {d e : Display} (h : ∀ x y, pixelOf d x y = pixelOf e x y) : d = e := by
  refine Vector.ext fun j hj => Vector.ext fun k hk => ?_
  exact h ⟨k, hk⟩ ⟨j, hj⟩

theorem spriteColumn_injective (x0 : Byte) {c c' : Nat} (hc : c < 8) (hc' : c' < 8)
    (h : spriteColumn x0 c = spriteColumn x0 c') : c = c' := by
  have := congrArg Fin.val h
  simp only [spriteColumn, Fin.ofNat] at this
  omega

theorem spriteRow_injective (y0 : Byte) {r r' : Nat} (hr : r < r' + 32) (hr' : r' < r + 32)
    (h : spriteRow y0 r = spriteRow y0 r') : r = r' := by
  have := congrArg Fin.val h
  simp only [spriteRow, Fin.ofNat] at this
  omega

/-- One sprite bit: its pixel is xored with it, every other pixel stays, and a set bit on a lit pixel is a hit. -/
theorem drawBit_pixel (x x' : Fin 64) (y y' : Fin 32) (bit : Bool) (canvas : Display × Bool) :
    pixelOf (drawBit x y bit canvas).1 x' y' =
      if x' = x ∧ y' = y then (pixelOf canvas.1 x y ^^ bit) else pixelOf canvas.1 x' y' := by
  cases bit
  · simp only [drawBit, Bool.false_eq_true, if_false, Bool.xor_false]
    split_ifs with h
    · rw [h.1, h.2]
    · rfl
  · simp [drawBit, pixelOf_flipPixel]

theorem drawBit_collision (x : Fin 64) (y : Fin 32) (bit : Bool) (canvas : Display × Bool) :
    (drawBit x y bit canvas).2 = (canvas.2 || (bit && pixelOf canvas.1 x y)) := by
  cases bit <;> simp [drawBit]

/-- Drawing bits at distinct columns of one row. -/
theorem drawBits_spec (col : Nat → Fin 64) (y : Fin 32) (bit : Nat → Bool) (cs : List Nat) (canvas : Display × Bool)
    (distinct : cs.Pairwise fun c c' => col c ≠ col c') :
    (∀ c ∈ cs, pixelOf (cs.foldl (fun acc c => drawBit (col c) y (bit c) acc) canvas).1 (col c) y =
        (pixelOf canvas.1 (col c) y ^^ bit c)) ∧
    (∀ x' y', (∀ c ∈ cs, ¬(x' = col c ∧ y' = y)) →
        pixelOf (cs.foldl (fun acc c => drawBit (col c) y (bit c) acc) canvas).1 x' y' = pixelOf canvas.1 x' y') ∧
    ((cs.foldl (fun acc c => drawBit (col c) y (bit c) acc) canvas).2 = true ↔
      canvas.2 = true ∨ ∃ c ∈ cs, bit c = true ∧ pixelOf canvas.1 (col c) y = true) := by
  induction cs generalizing canvas with
  | nil => simp
  | cons c0 cs ih =>
    obtain ⟨h0, hcs⟩ := List.pairwise_cons.1 distinct
    obtain ⟨hit, miss, coll⟩ := ih (drawBit (col c0) y (bit c0) canvas) hcs
    have tail_pixel : ∀ c ∈ cs, pixelOf (drawBit (col c0) y (bit c0) canvas).1 (col c) y = pixelOf canvas.1 (col c) y := by
      intro c hc
      rw [drawBit_pixel, if_neg]
      exact fun h => h0 c hc h.1.symm
    refine ⟨?_, ?_, ?_⟩
    · intro c hc
      rcases List.mem_cons.1 hc with rfl | hc
      · rw [List.foldl_cons, miss _ _ (fun c' hc' h => h0 c' hc' h.1), drawBit_pixel, if_pos ⟨rfl, rfl⟩]
      · rw [List.foldl_cons, hit c hc, tail_pixel c hc]
    · intro x' y' h
      rw [List.foldl_cons, miss x' y' (fun c hc => h c (List.mem_cons_of_mem _ hc)), drawBit_pixel,
        if_neg (h c0 List.mem_cons_self)]
    · rw [List.foldl_cons, coll, drawBit_collision]
      constructor
      · rintro (h | ⟨c, hc, hb, hp⟩)
        · rcases (Bool.or_eq_true _ _).mp h with h | h
          · exact .inl h
          · exact .inr ⟨c0, List.mem_cons_self, (Bool.and_eq_true _ _).mp h⟩
        · exact .inr ⟨c, List.mem_cons_of_mem _ hc, hb, by rwa [← tail_pixel c hc]⟩
      · rintro (h | ⟨c, hc, hb, hp⟩)
        · exact .inl (by simp [h])
        · rcases List.mem_cons.1 hc with rfl | hc
          · exact .inl (by simp [hb, hp])
          · exact .inr ⟨c, hc, hb, by rwa [tail_pixel c hc]⟩

theorem range8_distinct (x0 : Byte) : (List.range 8).Pairwise fun c c' => spriteColumn x0 c ≠ spriteColumn x0 c' := by
  refine List.Pairwise.imp_of_mem (fun {c c'} hc hc' hlt => ?_) (List.pairwise_lt_range (n := 8))
  intro h
  have := spriteColumn_injective x0 (List.mem_range.1 hc) (List.mem_range.1 hc') h
  omega

/-- A sprite row: the pixel of each of its eight columns is xored with its bit. -/
theorem drawRow_hit (x0 : Byte) (y : Fin 32) (b : Byte) (canvas : Display × Bool) {c : Nat} (hc : c < 8) :
    pixelOf (drawRow x0 y b canvas).1 (spriteColumn x0 c) y =
      (pixelOf canvas.1 (spriteColumn x0 c) y ^^ spriteBit b c) :=
  (drawBits_spec (spriteColumn x0) y (spriteBit b) (List.range 8) canvas (range8_distinct x0)).1 c (List.mem_range.2 hc)

/-- A sprite row leaves every pixel outside its eight columns alone. -/
theorem drawRow_miss (x0 : Byte) (y : Fin 32) (b : Byte) (canvas : Display × Bool) (x' : Fin 64) (y' : Fin 32)
    (h : ∀ c < 8, ¬(x' = spriteColumn x0 c ∧ y' = y)) :
    pixelOf (drawRow x0 y b canvas).1 x' y' = pixelOf canvas.1 x' y' :=
  (drawBits_spec (spriteColumn x0) y (spriteBit b) (List.range 8) canvas (range8_distinct x0)).2.1 x' y'
    fun c hc => h c (List.mem_range.1 hc)

/-- A sprite row collides where a set bit meets a lit pixel. -/
theorem drawRow_collision (x0 : Byte) (y : Fin 32) (b : Byte) (canvas : Display × Bool) :
    (drawRow x0 y b canvas).2 = true ↔
      canvas.2 = true ∨ ∃ c < 8, spriteBit b c = true ∧ pixelOf canvas.1 (spriteColumn x0 c) y = true := by
  have := (drawBits_spec (spriteColumn x0) y (spriteBit b) (List.range 8) canvas (range8_distinct x0)).2.2
  simp only [List.mem_range] at this
  exact this

/-- The whole sprite, at most 32 rows: each bit xors its own pixel, no other pixel changes, and the collision found says
whether a set bit met a pixel that was lit before the draw. -/
theorem drawRows_spec (x0 y0 : Byte) (r0 : Nat) (bytes : List Byte) (canvas : Display × Bool)
    (short : bytes.length ≤ 32) :
    (∀ r < bytes.length, ∀ c < 8,
      pixelOf (drawRows x0 y0 r0 bytes canvas).1 (spriteColumn x0 c) (spriteRow y0 (r0 + r)) =
        (pixelOf canvas.1 (spriteColumn x0 c) (spriteRow y0 (r0 + r)) ^^ spriteBit (bytes.getD r 0) c)) ∧
    (∀ x' y', (∀ r < bytes.length, ∀ c < 8, ¬(x' = spriteColumn x0 c ∧ y' = spriteRow y0 (r0 + r))) →
      pixelOf (drawRows x0 y0 r0 bytes canvas).1 x' y' = pixelOf canvas.1 x' y') ∧
    ((drawRows x0 y0 r0 bytes canvas).2 = true ↔
      canvas.2 = true ∨ ∃ r < bytes.length, ∃ c < 8, spriteBit (bytes.getD r 0) c = true ∧
        pixelOf canvas.1 (spriteColumn x0 c) (spriteRow y0 (r0 + r)) = true) := by
  induction bytes generalizing r0 canvas with
  | nil => simp [drawRows]
  | cons b bytes ih =>
    simp only [List.length_cons] at short
    obtain ⟨hit, miss, coll⟩ := ih (r0 + 1) (drawRow x0 (spriteRow y0 r0) b canvas) (by omega)
    have apart : ∀ r < bytes.length, spriteRow y0 (r0 + 1 + r) ≠ spriteRow y0 r0 := fun r hr h => by
      have := spriteRow_injective y0 (by omega) (by omega) h
      omega
    have later : ∀ r < bytes.length, ∀ x', pixelOf (drawRow x0 (spriteRow y0 r0) b canvas).1 x' (spriteRow y0 (r0 + 1 + r)) =
        pixelOf canvas.1 x' (spriteRow y0 (r0 + 1 + r)) := fun r hr x' =>
      drawRow_miss _ _ _ _ _ _ fun c _ h => apart r hr h.2
    have shift : ∀ r, r0 + (r + 1) = r0 + 1 + r := fun r => by omega
    refine ⟨?_, ?_, ?_⟩
    · intro r hr c hc
      cases r with
      | zero =>
        rw [drawRows, Nat.add_zero r0, miss _ _ (fun r hr c _ h => apart r hr h.2.symm), drawRow_hit _ _ _ _ hc]
        rfl
      | succ r =>
        have hr' : r < bytes.length := by simpa using hr
        rw [drawRows, shift r, hit r hr' c hc, later r hr', List.getD_cons_succ]
    · intro x' y' h
      rw [drawRows, miss x' y', drawRow_miss]
      · intro c hc hh
        exact h 0 (by simp) c hc (by simpa using hh)
      · intro r hr c hc hh
        exact h (r + 1) (by simpa using hr) c hc (by rw [shift]; exact hh)
    · rw [drawRows, coll, drawRow_collision]
      constructor
      · rintro ((h | ⟨c, hc, hb, hp⟩) | ⟨r, hr, c, hc, hb, hp⟩)
        · exact .inl h
        · exact .inr ⟨0, by simp, c, hc, by simpa using hb, by simpa using hp⟩
        · exact .inr ⟨r + 1, by simpa using hr, c, hc, by simpa using hb, by rw [shift, ← later r hr]; exact hp⟩
      · rintro (h | ⟨r, hr, c, hc, hb, hp⟩)
        · exact .inl (.inl h)
        · cases r with
          | zero => exact .inl (.inr ⟨c, hc, by simpa using hb, by simpa using hp⟩)
          | succ r =>
            have hr' : r < bytes.length := by simpa using hr
            exact .inr ⟨r, hr', c, hc, by simpa using hb, by rw [later r hr', ← shift]; exact hp⟩

@[simp] theorem spriteBytes_length (n : Nibble) (s : State) : (spriteBytes n s).length = n.toNat := by
  simp [spriteBytes]

theorem spriteBytes_getD (n : Nibble) (s : State) {r : Nat} (hr : r < n.toNat) :
    (spriteBytes n s).getD r 0 = readByte (effAddr r s) s := by
  simp [spriteBytes, List.getD, hr]

/-- What DXYN makes of the framebuffer and of VF (R151, R153), in the terms of the rule. -/
theorem drawSprite_spec (x y : Reg) (n : Nibble) (s : State) :
    (∀ r < n.toNat, ∀ c < 8,
      pixelOf (drawSprite x y n s).1 (spriteColumn (reg x s) c) (spriteRow (reg y s) r) =
        (pixelOf s.display (spriteColumn (reg x s) c) (spriteRow (reg y s) r) ^^
          spriteBit (readByte (effAddr r s) s) c)) ∧
    (∀ px py, (∀ r < n.toNat, ∀ c < 8, ¬(px = spriteColumn (reg x s) c ∧ py = spriteRow (reg y s) r)) →
      pixelOf (drawSprite x y n s).1 px py = pixelOf s.display px py) ∧
    ((drawSprite x y n s).2 = true ↔ ∃ r < n.toNat, ∃ c < 8, spriteBit (readByte (effAddr r s) s) c = true ∧
      pixelOf s.display (spriteColumn (reg x s) c) (spriteRow (reg y s) r) = true) := by
  have hn := n.isLt
  obtain ⟨hit, miss, coll⟩ :=
    drawRows_spec (reg x s) (reg y s) 0 (spriteBytes n s) (s.display, false) (by rw [spriteBytes_length]; omega)
  simp only [spriteBytes_length, Nat.zero_add, Bool.false_eq_true, false_or] at hit miss coll
  refine ⟨fun r hr c hc => ?_, miss, coll.trans ?_⟩
  · rw [← spriteBytes_getD n s hr]; exact hit r hr c hc
  · constructor <;> rintro ⟨r, hr, c, hc, hb, hp⟩ <;> refine ⟨r, hr, c, hc, ?_, hp⟩
    · rwa [← spriteBytes_getD n s hr]
    · rwa [spriteBytes_getD n s hr]

end Sys2Proof.Machine
end

