-- ==== Sys2Proof/Laws/Memory.lean ====
section
/-! SUPPORT. What a write of memory does to every later read, and that every memory operation keeps the canonical
form and the program region. -/

namespace Sys2Proof.Machine

@[simp] theorem memRead_nil (a : Nat) : memRead [] a = resetByte a := rfl

theorem memRead_cons (b : Nat) (v : Byte) (m : Memory) (a : Nat) :
    memRead ((b, v) :: m) a = if b = a then v else memRead m a := rfl

theorem memRead_memInsert (m : Memory) (a c : Nat) (v : Byte) :
    memRead (memInsert m a v) c = if c = a then v else memRead m c := by
  induction m with
  | nil => simp [memInsert, memRead_cons, eq_comm]
  | cons cell m ih =>
    obtain ⟨b, w⟩ := cell
    simp only [memInsert]
    split_ifs with h1 h2 h3 <;> simp only [memRead_cons, ih] <;> split_ifs <;> first | rfl | omega

theorem memRead_memErase (m : Memory) (a c : Nat) :
    memRead (memErase m a) c = if c = a then resetByte c else memRead m c := by
  induction m with
  | nil => simp [memErase]
  | cons cell m ih =>
    obtain ⟨b, w⟩ := cell
    unfold memErase at ih ⊢
    by_cases hb : b = a
    · subst hb
      simp only [List.filter_cons, bne_self_eq_false, Bool.false_eq_true, if_false, ih, memRead_cons]
      split_ifs <;> first | rfl | omega
    · have : (b != a) = true := by simp [hb]
      simp only [List.filter_cons, this, if_true, memRead_cons, ih]
      split_ifs <;> first | rfl | omega

/-- A read after a write: the byte written at its address, the old byte everywhere else. -/
theorem memRead_memWrite (m : Memory) (a c : Nat) (v : Byte) :
    memRead (memWrite m a v) c = if c = a then v else memRead m c := by
  unfold memWrite
  split_ifs with hv hc hc
  · subst hc; simp [memRead_memErase, hv]
  · simp [memRead_memErase, hc]
  · simp [memRead_memInsert, hc]
  · simp [memRead_memInsert, hc]

/-- A read after a block write: byte `c - a` of the block inside it, the old byte outside it. -/
theorem memRead_memWriteBytes (m : Memory) (a c : Nat) (bytes : List Byte) :
    memRead (memWriteBytes m a bytes) c =
      if a ≤ c ∧ c < a + bytes.length then bytes.getD (c - a) 0 else memRead m c := by
  induction bytes generalizing m a with
  | nil =>
    have h : ¬(a ≤ c ∧ c < a + ([] : List Byte).length) := by simp
    rw [if_neg h]; rfl
  | cons v vs ih =>
    simp only [memWriteBytes, ih, memRead_memWrite, List.length_cons]
    by_cases h : c = a
    · subst h; simp
    · by_cases hin : a + 1 ≤ c ∧ c < a + 1 + vs.length
      · obtain ⟨d, rfl⟩ : ∃ d, c = a + 1 + d := ⟨c - (a + 1), by omega⟩
        have h1 : a + 1 + d - (a + 1) = d := by omega
        have h2 : a + 1 + d - a = d + 1 := by omega
        rw [if_pos hin, if_pos (by omega), h1, h2, List.getD_cons_succ]
      · rw [if_neg hin, if_neg h, if_neg (by omega)]

theorem mem_memInsert {m : Memory} {a : Nat} {v : Byte} {cell : Host.Cell} (h : cell ∈ memInsert m a v) :
    cell = (a, v) ∨ cell ∈ m := by
  induction m with
  | nil => simpa [memInsert] using h
  | cons head m ih =>
    obtain ⟨b, w⟩ := head
    simp only [memInsert] at h
    split_ifs at h with h1 h2
    · simpa using h
    · rcases List.mem_cons.1 h with h | h
      · exact .inl h
      · exact .inr (List.mem_cons_of_mem _ h)
    · rcases List.mem_cons.1 h with h | h
      · exact .inr (h ▸ List.mem_cons_self)
      · exact (ih h).imp_right (List.mem_cons_of_mem _)

theorem memInsert_sorted {m : Memory} (a : Nat) (v : Byte) (h : m.Pairwise (fun c d => c.1 < d.1)) :
    (memInsert m a v).Pairwise (fun c d => c.1 < d.1) := by
  induction m with
  | nil => simp [memInsert]
  | cons head m ih =>
    obtain ⟨b, w⟩ := head
    obtain ⟨hb, hm⟩ := List.pairwise_cons.1 h
    simp only [memInsert]
    split_ifs with h1 h2
    · refine List.pairwise_cons.2 ⟨fun c hc => ?_, h⟩
      rcases List.mem_cons.1 hc with rfl | hc
      · exact h1
      · exact h1.trans (hb c hc)
    · subst h2; exact List.pairwise_cons.2 ⟨hb, hm⟩
    · refine List.pairwise_cons.2 ⟨fun c hc => ?_, ih hm⟩
      rcases mem_memInsert hc with rfl | hc
      · show b < a; omega
      · exact hb c hc

/-- Writing keeps the canonical form. -/
theorem memWrite_wf {m : Memory} (a : Nat) (v : Byte) (h : m.wf) : (memWrite m a v).wf := by
  unfold memWrite
  split_ifs with hv
  · exact ⟨h.1.sublist List.filter_sublist, fun c hc => h.2 c (List.mem_of_mem_filter hc)⟩
  · refine ⟨memInsert_sorted a v h.1, fun c hc => ?_⟩
    rcases mem_memInsert hc with rfl | hc
    · exact hv
    · exact h.2 c hc

/-- A block write keeps the canonical form. -/
theorem memWriteBytes_wf {m : Memory} (a : Nat) (bytes : List Byte) (h : m.wf) : (memWriteBytes m a bytes).wf := by
  induction bytes generalizing m a with
  | nil => exact h
  | cons v vs ih => exact ih (a + 1) (memWrite_wf a v h)

theorem memWrite_inProgramRegion {m : Memory} (a : Nat) (v : Byte) (h : m.inProgramRegion)
    (ha : 0x200 ≤ a ∧ a ≤ 0xFFF) : (memWrite m a v).inProgramRegion := by
  unfold memWrite
  split_ifs with hv
  · exact fun c hc => h c (List.mem_of_mem_filter hc)
  · intro c hc
    rcases mem_memInsert hc with rfl | hc
    · exact ha
    · exact h c hc

/-- A block write inside 0x200 to 0xFFF lists nothing outside it. -/
theorem memWriteBytes_inProgramRegion {m : Memory} (a : Nat) (bytes : List Byte) (h : m.inProgramRegion)
    (lo : 0x200 ≤ a) (hi : a + bytes.length ≤ 0x1000) : (memWriteBytes m a bytes).inProgramRegion := by
  induction bytes generalizing m a with
  | nil => exact h
  | cons v vs ih =>
    simp only [List.length_cons] at hi
    exact ih (a + 1) (memWrite_inProgramRegion a v h (by omega)) (by omega) (by omega)

/-- Outside the listed addresses a memory reads its reset contents. -/
theorem memRead_of_not_listed {m : Memory} {a : Nat} (h : ∀ cell ∈ m, cell.1 ≠ a) : memRead m a = resetByte a := by
  induction m with
  | nil => rfl
  | cons cell m ih =>
    obtain ⟨b, w⟩ := cell
    have hb : b ≠ a := h (b, w) List.mem_cons_self
    rw [memRead_cons, if_neg hb]
    exact ih fun c hc => h c (List.mem_cons_of_mem _ hc)

end Sys2Proof.Machine
end

