-- ==== Sys2Proof/Laws/State.lean ====
section
/-! SUPPORT. One lemma per field per update of the state, so that no proof unfolds a record update. -/

namespace Sys2Proof.Machine

/-! ## writeReg -/

@[simp] theorem writeReg_v (r : Reg) (b : Byte) (s : State) : (writeReg r b s).v = s.v.set r b := rfl
@[simp] theorem writeReg_index (r : Reg) (b : Byte) (s : State) : (writeReg r b s).index = s.index := rfl
@[simp] theorem writeReg_pc (r : Reg) (b : Byte) (s : State) : (writeReg r b s).pc = s.pc := rfl
@[simp] theorem writeReg_sp (r : Reg) (b : Byte) (s : State) : (writeReg r b s).sp = s.sp := rfl
@[simp] theorem writeReg_stack (r : Reg) (b : Byte) (s : State) : (writeReg r b s).stack = s.stack := rfl
@[simp] theorem writeReg_delayTimer (r : Reg) (b : Byte) (s : State) : (writeReg r b s).delayTimer = s.delayTimer := rfl
@[simp] theorem writeReg_soundTimer (r : Reg) (b : Byte) (s : State) : (writeReg r b s).soundTimer = s.soundTimer := rfl
@[simp] theorem writeReg_memory (r : Reg) (b : Byte) (s : State) : (writeReg r b s).memory = s.memory := rfl
@[simp] theorem writeReg_keyboard (r : Reg) (b : Byte) (s : State) : (writeReg r b s).keyboard = s.keyboard := rfl
@[simp] theorem writeReg_display (r : Reg) (b : Byte) (s : State) : (writeReg r b s).display = s.display := rfl
@[simp] theorem writeReg_drawFlag (r : Reg) (b : Byte) (s : State) : (writeReg r b s).drawFlag = s.drawFlag := rfl
@[simp] theorem writeReg_rng (r : Reg) (b : Byte) (s : State) : (writeReg r b s).rng = s.rng := rfl

/-! ## setIndex -/

@[simp] theorem setIndex_v (w : Word) (s : State) : (setIndex w s).v = s.v := rfl
@[simp] theorem setIndex_index (w : Word) (s : State) : (setIndex w s).index = w := rfl
@[simp] theorem setIndex_pc (w : Word) (s : State) : (setIndex w s).pc = s.pc := rfl
@[simp] theorem setIndex_sp (w : Word) (s : State) : (setIndex w s).sp = s.sp := rfl
@[simp] theorem setIndex_stack (w : Word) (s : State) : (setIndex w s).stack = s.stack := rfl
@[simp] theorem setIndex_delayTimer (w : Word) (s : State) : (setIndex w s).delayTimer = s.delayTimer := rfl
@[simp] theorem setIndex_soundTimer (w : Word) (s : State) : (setIndex w s).soundTimer = s.soundTimer := rfl
@[simp] theorem setIndex_memory (w : Word) (s : State) : (setIndex w s).memory = s.memory := rfl
@[simp] theorem setIndex_keyboard (w : Word) (s : State) : (setIndex w s).keyboard = s.keyboard := rfl
@[simp] theorem setIndex_display (w : Word) (s : State) : (setIndex w s).display = s.display := rfl
@[simp] theorem setIndex_drawFlag (w : Word) (s : State) : (setIndex w s).drawFlag = s.drawFlag := rfl
@[simp] theorem setIndex_rng (w : Word) (s : State) : (setIndex w s).rng = s.rng := rfl

/-! ## setPc -/

@[simp] theorem setPc_v (w : Word) (s : State) : (setPc w s).v = s.v := rfl
@[simp] theorem setPc_index (w : Word) (s : State) : (setPc w s).index = s.index := rfl
@[simp] theorem setPc_pc (w : Word) (s : State) : (setPc w s).pc = w := rfl
@[simp] theorem setPc_sp (w : Word) (s : State) : (setPc w s).sp = s.sp := rfl
@[simp] theorem setPc_stack (w : Word) (s : State) : (setPc w s).stack = s.stack := rfl
@[simp] theorem setPc_delayTimer (w : Word) (s : State) : (setPc w s).delayTimer = s.delayTimer := rfl
@[simp] theorem setPc_soundTimer (w : Word) (s : State) : (setPc w s).soundTimer = s.soundTimer := rfl
@[simp] theorem setPc_memory (w : Word) (s : State) : (setPc w s).memory = s.memory := rfl
@[simp] theorem setPc_keyboard (w : Word) (s : State) : (setPc w s).keyboard = s.keyboard := rfl
@[simp] theorem setPc_display (w : Word) (s : State) : (setPc w s).display = s.display := rfl
@[simp] theorem setPc_drawFlag (w : Word) (s : State) : (setPc w s).drawFlag = s.drawFlag := rfl
@[simp] theorem setPc_rng (w : Word) (s : State) : (setPc w s).rng = s.rng := rfl

/-! ## advance -/

@[simp] theorem advance_v (s : State) : (advance s).v = s.v := rfl
@[simp] theorem advance_index (s : State) : (advance s).index = s.index := rfl
@[simp] theorem advance_pc (s : State) : (advance s).pc = s.pc + 2 := rfl
@[simp] theorem advance_sp (s : State) : (advance s).sp = s.sp := rfl
@[simp] theorem advance_stack (s : State) : (advance s).stack = s.stack := rfl
@[simp] theorem advance_delayTimer (s : State) : (advance s).delayTimer = s.delayTimer := rfl
@[simp] theorem advance_soundTimer (s : State) : (advance s).soundTimer = s.soundTimer := rfl
@[simp] theorem advance_memory (s : State) : (advance s).memory = s.memory := rfl
@[simp] theorem advance_keyboard (s : State) : (advance s).keyboard = s.keyboard := rfl
@[simp] theorem advance_display (s : State) : (advance s).display = s.display := rfl
@[simp] theorem advance_drawFlag (s : State) : (advance s).drawFlag = s.drawFlag := rfl
@[simp] theorem advance_rng (s : State) : (advance s).rng = s.rng := rfl

/-! ## setDelay -/

@[simp] theorem setDelay_v (b : Byte) (s : State) : (setDelay b s).v = s.v := rfl
@[simp] theorem setDelay_index (b : Byte) (s : State) : (setDelay b s).index = s.index := rfl
@[simp] theorem setDelay_pc (b : Byte) (s : State) : (setDelay b s).pc = s.pc := rfl
@[simp] theorem setDelay_sp (b : Byte) (s : State) : (setDelay b s).sp = s.sp := rfl
@[simp] theorem setDelay_stack (b : Byte) (s : State) : (setDelay b s).stack = s.stack := rfl
@[simp] theorem setDelay_delayTimer (b : Byte) (s : State) : (setDelay b s).delayTimer = b := rfl
@[simp] theorem setDelay_soundTimer (b : Byte) (s : State) : (setDelay b s).soundTimer = s.soundTimer := rfl
@[simp] theorem setDelay_memory (b : Byte) (s : State) : (setDelay b s).memory = s.memory := rfl
@[simp] theorem setDelay_keyboard (b : Byte) (s : State) : (setDelay b s).keyboard = s.keyboard := rfl
@[simp] theorem setDelay_display (b : Byte) (s : State) : (setDelay b s).display = s.display := rfl
@[simp] theorem setDelay_drawFlag (b : Byte) (s : State) : (setDelay b s).drawFlag = s.drawFlag := rfl
@[simp] theorem setDelay_rng (b : Byte) (s : State) : (setDelay b s).rng = s.rng := rfl

/-! ## setSound -/

@[simp] theorem setSound_v (b : Byte) (s : State) : (setSound b s).v = s.v := rfl
@[simp] theorem setSound_index (b : Byte) (s : State) : (setSound b s).index = s.index := rfl
@[simp] theorem setSound_pc (b : Byte) (s : State) : (setSound b s).pc = s.pc := rfl
@[simp] theorem setSound_sp (b : Byte) (s : State) : (setSound b s).sp = s.sp := rfl
@[simp] theorem setSound_stack (b : Byte) (s : State) : (setSound b s).stack = s.stack := rfl
@[simp] theorem setSound_delayTimer (b : Byte) (s : State) : (setSound b s).delayTimer = s.delayTimer := rfl
@[simp] theorem setSound_soundTimer (b : Byte) (s : State) : (setSound b s).soundTimer = b := rfl
@[simp] theorem setSound_memory (b : Byte) (s : State) : (setSound b s).memory = s.memory := rfl
@[simp] theorem setSound_keyboard (b : Byte) (s : State) : (setSound b s).keyboard = s.keyboard := rfl
@[simp] theorem setSound_display (b : Byte) (s : State) : (setSound b s).display = s.display := rfl
@[simp] theorem setSound_drawFlag (b : Byte) (s : State) : (setSound b s).drawFlag = s.drawFlag := rfl
@[simp] theorem setSound_rng (b : Byte) (s : State) : (setSound b s).rng = s.rng := rfl

/-! ## storeBytes -/

@[simp] theorem storeBytes_v (a : Nat) (bytes : List Byte) (s : State) : (storeBytes a bytes s).v = s.v := rfl
@[simp] theorem storeBytes_index (a : Nat) (bytes : List Byte) (s : State) : (storeBytes a bytes s).index = s.index := rfl
@[simp] theorem storeBytes_pc (a : Nat) (bytes : List Byte) (s : State) : (storeBytes a bytes s).pc = s.pc := rfl
@[simp] theorem storeBytes_sp (a : Nat) (bytes : List Byte) (s : State) : (storeBytes a bytes s).sp = s.sp := rfl
@[simp] theorem storeBytes_stack (a : Nat) (bytes : List Byte) (s : State) : (storeBytes a bytes s).stack = s.stack := rfl
@[simp] theorem storeBytes_delayTimer (a : Nat) (bytes : List Byte) (s : State) : (storeBytes a bytes s).delayTimer = s.delayTimer := rfl
@[simp] theorem storeBytes_soundTimer (a : Nat) (bytes : List Byte) (s : State) : (storeBytes a bytes s).soundTimer = s.soundTimer := rfl
@[simp] theorem storeBytes_memory (a : Nat) (bytes : List Byte) (s : State) : (storeBytes a bytes s).memory = memWriteBytes s.memory a bytes := rfl
@[simp] theorem storeBytes_keyboard (a : Nat) (bytes : List Byte) (s : State) : (storeBytes a bytes s).keyboard = s.keyboard := rfl
@[simp] theorem storeBytes_display (a : Nat) (bytes : List Byte) (s : State) : (storeBytes a bytes s).display = s.display := rfl
@[simp] theorem storeBytes_drawFlag (a : Nat) (bytes : List Byte) (s : State) : (storeBytes a bytes s).drawFlag = s.drawFlag := rfl
@[simp] theorem storeBytes_rng (a : Nat) (bytes : List Byte) (s : State) : (storeBytes a bytes s).rng = s.rng := rfl

/-! ## showDisplay -/

@[simp] theorem showDisplay_v (d : Display) (s : State) : (showDisplay d s).v = s.v := rfl
@[simp] theorem showDisplay_index (d : Display) (s : State) : (showDisplay d s).index = s.index := rfl
@[simp] theorem showDisplay_pc (d : Display) (s : State) : (showDisplay d s).pc = s.pc := rfl
@[simp] theorem showDisplay_sp (d : Display) (s : State) : (showDisplay d s).sp = s.sp := rfl
@[simp] theorem showDisplay_stack (d : Display) (s : State) : (showDisplay d s).stack = s.stack := rfl
@[simp] theorem showDisplay_delayTimer (d : Display) (s : State) : (showDisplay d s).delayTimer = s.delayTimer := rfl
@[simp] theorem showDisplay_soundTimer (d : Display) (s : State) : (showDisplay d s).soundTimer = s.soundTimer := rfl
@[simp] theorem showDisplay_memory (d : Display) (s : State) : (showDisplay d s).memory = s.memory := rfl
@[simp] theorem showDisplay_keyboard (d : Display) (s : State) : (showDisplay d s).keyboard = s.keyboard := rfl
@[simp] theorem showDisplay_display (d : Display) (s : State) : (showDisplay d s).display = d := rfl
@[simp] theorem showDisplay_drawFlag (d : Display) (s : State) : (showDisplay d s).drawFlag = true := rfl
@[simp] theorem showDisplay_rng (d : Display) (s : State) : (showDisplay d s).rng = s.rng := rfl

/-! ## tick -/

@[simp] theorem tick_v (s : State) : (tick s).v = s.v := rfl
@[simp] theorem tick_index (s : State) : (tick s).index = s.index := rfl
@[simp] theorem tick_pc (s : State) : (tick s).pc = s.pc := rfl
@[simp] theorem tick_sp (s : State) : (tick s).sp = s.sp := rfl
@[simp] theorem tick_stack (s : State) : (tick s).stack = s.stack := rfl
@[simp] theorem tick_delayTimer (s : State) : (tick s).delayTimer = countDown s.delayTimer := rfl
@[simp] theorem tick_soundTimer (s : State) : (tick s).soundTimer = countDown s.soundTimer := rfl
@[simp] theorem tick_memory (s : State) : (tick s).memory = s.memory := rfl
@[simp] theorem tick_keyboard (s : State) : (tick s).keyboard = s.keyboard := rfl
@[simp] theorem tick_display (s : State) : (tick s).display = s.display := rfl
@[simp] theorem tick_drawFlag (s : State) : (tick s).drawFlag = s.drawFlag := rfl
@[simp] theorem tick_rng (s : State) : (tick s).rng = s.rng := rfl

/-! ## writeKey -/

@[simp] theorem writeKey_v (k : Key) (down : Bool) (s : State) : (writeKey k down s).v = s.v := rfl
@[simp] theorem writeKey_index (k : Key) (down : Bool) (s : State) : (writeKey k down s).index = s.index := rfl
@[simp] theorem writeKey_pc (k : Key) (down : Bool) (s : State) : (writeKey k down s).pc = s.pc := rfl
@[simp] theorem writeKey_sp (k : Key) (down : Bool) (s : State) : (writeKey k down s).sp = s.sp := rfl
@[simp] theorem writeKey_stack (k : Key) (down : Bool) (s : State) : (writeKey k down s).stack = s.stack := rfl
@[simp] theorem writeKey_delayTimer (k : Key) (down : Bool) (s : State) : (writeKey k down s).delayTimer = s.delayTimer := rfl
@[simp] theorem writeKey_soundTimer (k : Key) (down : Bool) (s : State) : (writeKey k down s).soundTimer = s.soundTimer := rfl
@[simp] theorem writeKey_memory (k : Key) (down : Bool) (s : State) : (writeKey k down s).memory = s.memory := rfl
@[simp] theorem writeKey_keyboard (k : Key) (down : Bool) (s : State) : (writeKey k down s).keyboard = s.keyboard.set k down := rfl
@[simp] theorem writeKey_display (k : Key) (down : Bool) (s : State) : (writeKey k down s).display = s.display := rfl
@[simp] theorem writeKey_drawFlag (k : Key) (down : Bool) (s : State) : (writeKey k down s).drawFlag = s.drawFlag := rfl
@[simp] theorem writeKey_rng (k : Key) (down : Bool) (s : State) : (writeKey k down s).rng = s.rng := rfl

/-! ## drawAck -/

@[simp] theorem drawAck_v (s : State) : (drawAck s).v = s.v := rfl
@[simp] theorem drawAck_index (s : State) : (drawAck s).index = s.index := rfl
@[simp] theorem drawAck_pc (s : State) : (drawAck s).pc = s.pc := rfl
@[simp] theorem drawAck_sp (s : State) : (drawAck s).sp = s.sp := rfl
@[simp] theorem drawAck_stack (s : State) : (drawAck s).stack = s.stack := rfl
@[simp] theorem drawAck_delayTimer (s : State) : (drawAck s).delayTimer = s.delayTimer := rfl
@[simp] theorem drawAck_soundTimer (s : State) : (drawAck s).soundTimer = s.soundTimer := rfl
@[simp] theorem drawAck_memory (s : State) : (drawAck s).memory = s.memory := rfl
@[simp] theorem drawAck_keyboard (s : State) : (drawAck s).keyboard = s.keyboard := rfl
@[simp] theorem drawAck_display (s : State) : (drawAck s).display = s.display := rfl
@[simp] theorem drawAck_drawFlag (s : State) : (drawAck s).drawFlag = false := rfl
@[simp] theorem drawAck_rng (s : State) : (drawAck s).rng = s.rng := rfl

/-! ## loadUpTo -/

@[simp] theorem loadUpTo_v (x : Reg) (s : State) : (loadUpTo x s).v = Vector.ofFn fun r : Fin 16 => if r.val ≤ x.val then readByte (effAddr r.val s) s else s.v[r] := rfl
@[simp] theorem loadUpTo_index (x : Reg) (s : State) : (loadUpTo x s).index = s.index := rfl
@[simp] theorem loadUpTo_pc (x : Reg) (s : State) : (loadUpTo x s).pc = s.pc := rfl
@[simp] theorem loadUpTo_sp (x : Reg) (s : State) : (loadUpTo x s).sp = s.sp := rfl
@[simp] theorem loadUpTo_stack (x : Reg) (s : State) : (loadUpTo x s).stack = s.stack := rfl
@[simp] theorem loadUpTo_delayTimer (x : Reg) (s : State) : (loadUpTo x s).delayTimer = s.delayTimer := rfl
@[simp] theorem loadUpTo_soundTimer (x : Reg) (s : State) : (loadUpTo x s).soundTimer = s.soundTimer := rfl
@[simp] theorem loadUpTo_memory (x : Reg) (s : State) : (loadUpTo x s).memory = s.memory := rfl
@[simp] theorem loadUpTo_keyboard (x : Reg) (s : State) : (loadUpTo x s).keyboard = s.keyboard := rfl
@[simp] theorem loadUpTo_display (x : Reg) (s : State) : (loadUpTo x s).display = s.display := rfl
@[simp] theorem loadUpTo_drawFlag (x : Reg) (s : State) : (loadUpTo x s).drawFlag = s.drawFlag := rfl
@[simp] theorem loadUpTo_rng (x : Reg) (s : State) : (loadUpTo x s).rng = s.rng := rfl

/-! ## writeFlag -/

@[simp] theorem writeFlag_v (b : Bool) (s : State) : (writeFlag b s).v = s.v.set vf (flagByte b) := rfl
@[simp] theorem writeFlag_index (b : Bool) (s : State) : (writeFlag b s).index = s.index := rfl
@[simp] theorem writeFlag_pc (b : Bool) (s : State) : (writeFlag b s).pc = s.pc := rfl
@[simp] theorem writeFlag_sp (b : Bool) (s : State) : (writeFlag b s).sp = s.sp := rfl
@[simp] theorem writeFlag_stack (b : Bool) (s : State) : (writeFlag b s).stack = s.stack := rfl
@[simp] theorem writeFlag_delayTimer (b : Bool) (s : State) : (writeFlag b s).delayTimer = s.delayTimer := rfl
@[simp] theorem writeFlag_soundTimer (b : Bool) (s : State) : (writeFlag b s).soundTimer = s.soundTimer := rfl
@[simp] theorem writeFlag_memory (b : Bool) (s : State) : (writeFlag b s).memory = s.memory := rfl
@[simp] theorem writeFlag_keyboard (b : Bool) (s : State) : (writeFlag b s).keyboard = s.keyboard := rfl
@[simp] theorem writeFlag_display (b : Bool) (s : State) : (writeFlag b s).display = s.display := rfl
@[simp] theorem writeFlag_drawFlag (b : Bool) (s : State) : (writeFlag b s).drawFlag = s.drawFlag := rfl
@[simp] theorem writeFlag_rng (b : Bool) (s : State) : (writeFlag b s).rng = s.rng := rfl

/-! ## skipUnknown -/

@[simp] theorem skipUnknown_v (s : State) : (skipUnknown s).v = s.v := rfl
@[simp] theorem skipUnknown_index (s : State) : (skipUnknown s).index = s.index := rfl
@[simp] theorem skipUnknown_pc (s : State) : (skipUnknown s).pc = s.pc + 2 := rfl
@[simp] theorem skipUnknown_sp (s : State) : (skipUnknown s).sp = s.sp := rfl
@[simp] theorem skipUnknown_stack (s : State) : (skipUnknown s).stack = s.stack := rfl
@[simp] theorem skipUnknown_delayTimer (s : State) : (skipUnknown s).delayTimer = s.delayTimer := rfl
@[simp] theorem skipUnknown_soundTimer (s : State) : (skipUnknown s).soundTimer = s.soundTimer := rfl
@[simp] theorem skipUnknown_memory (s : State) : (skipUnknown s).memory = s.memory := rfl
@[simp] theorem skipUnknown_keyboard (s : State) : (skipUnknown s).keyboard = s.keyboard := rfl
@[simp] theorem skipUnknown_display (s : State) : (skipUnknown s).display = s.display := rfl
@[simp] theorem skipUnknown_drawFlag (s : State) : (skipUnknown s).drawFlag = s.drawFlag := rfl
@[simp] theorem skipUnknown_rng (s : State) : (skipUnknown s).rng = s.rng := rfl

/-! ## skipIf -/

@[simp] theorem skipIf_v (c : Bool) (s : State) : (skipIf c s).v = s.v := by cases c <;> rfl
@[simp] theorem skipIf_index (c : Bool) (s : State) : (skipIf c s).index = s.index := by cases c <;> rfl
@[simp] theorem skipIf_pc (c : Bool) (s : State) : (skipIf c s).pc = if c then s.pc + 4 else s.pc + 2 := by
  cases c <;> rfl
@[simp] theorem skipIf_sp (c : Bool) (s : State) : (skipIf c s).sp = s.sp := by cases c <;> rfl
@[simp] theorem skipIf_stack (c : Bool) (s : State) : (skipIf c s).stack = s.stack := by cases c <;> rfl
@[simp] theorem skipIf_delayTimer (c : Bool) (s : State) : (skipIf c s).delayTimer = s.delayTimer := by cases c <;> rfl
@[simp] theorem skipIf_soundTimer (c : Bool) (s : State) : (skipIf c s).soundTimer = s.soundTimer := by cases c <;> rfl
@[simp] theorem skipIf_memory (c : Bool) (s : State) : (skipIf c s).memory = s.memory := by cases c <;> rfl
@[simp] theorem skipIf_keyboard (c : Bool) (s : State) : (skipIf c s).keyboard = s.keyboard := by cases c <;> rfl
@[simp] theorem skipIf_display (c : Bool) (s : State) : (skipIf c s).display = s.display := by cases c <;> rfl
@[simp] theorem skipIf_drawFlag (c : Bool) (s : State) : (skipIf c s).drawFlag = s.drawFlag := by cases c <;> rfl
@[simp] theorem skipIf_rng (c : Bool) (s : State) : (skipIf c s).rng = s.rng := by cases c <;> rfl

/-! ## drawRandom -/

@[simp] theorem drawRandom_byte (s : State) : (drawRandom s).1 = Config.randomByte s.rng.seed s.rng.draws := rfl
@[simp] theorem drawRandom_v (s : State) : (drawRandom s).2.v = s.v := rfl
@[simp] theorem drawRandom_index (s : State) : (drawRandom s).2.index = s.index := rfl
@[simp] theorem drawRandom_pc (s : State) : (drawRandom s).2.pc = s.pc := rfl
@[simp] theorem drawRandom_sp (s : State) : (drawRandom s).2.sp = s.sp := rfl
@[simp] theorem drawRandom_stack (s : State) : (drawRandom s).2.stack = s.stack := rfl
@[simp] theorem drawRandom_delayTimer (s : State) : (drawRandom s).2.delayTimer = s.delayTimer := rfl
@[simp] theorem drawRandom_soundTimer (s : State) : (drawRandom s).2.soundTimer = s.soundTimer := rfl
@[simp] theorem drawRandom_memory (s : State) : (drawRandom s).2.memory = s.memory := rfl
@[simp] theorem drawRandom_keyboard (s : State) : (drawRandom s).2.keyboard = s.keyboard := rfl
@[simp] theorem drawRandom_display (s : State) : (drawRandom s).2.display = s.display := rfl
@[simp] theorem drawRandom_drawFlag (s : State) : (drawRandom s).2.drawFlag = s.drawFlag := rfl
@[simp] theorem drawRandom_rng (s : State) : (drawRandom s).2.rng = ⟨s.rng.seed, s.rng.draws + 1⟩ := rfl

/-! ## Registers -/

theorem reg_def (r : Reg) (s : State) : reg r s = s.v[r] := rfl

@[simp] theorem reg_writeReg_same (r : Reg) (b : Byte) (s : State) : reg r (writeReg r b s) = b := by
  simp [reg]

theorem reg_writeReg_other (r q : Reg) (b : Byte) (s : State) (h : q ≠ r) : reg q (writeReg r b s) = reg q s := by
  have hv : r.val ≠ q.val := fun e => h (Fin.ext e.symm)
  simp [reg, Vector.getElem_set_ne _ _ hv]

theorem reg_writeReg (r q : Reg) (b : Byte) (s : State) :
    reg q (writeReg r b s) = if q = r then b else reg q s := by
  by_cases h : q = r
  · subst h; simp
  · simp [h, reg_writeReg_other r q b s h]

/-- An update that leaves `v` alone leaves every register alone. -/
theorem reg_congr {s t : State} (h : t.v = s.v) (r : Reg) : reg r t = reg r s := by simp [reg, h]

theorem reg_loadUpTo (x r : Reg) (s : State) :
    reg r (loadUpTo x s) = if r.val ≤ x.val then readByte (effAddr r.val s) s else reg r s := by
  simp [reg]

theorem reg_writeFlag (b : Bool) (q : Reg) (s : State) :
    reg q (writeFlag b s) = if q = vf then flagByte b else reg q s := reg_writeReg vf q (flagByte b) s

/-- An update that leaves `memory` alone leaves every byte alone. -/
theorem readByte_congr {s t : State} (h : t.memory = s.memory) (a : Nat) : readByte a t = readByte a s := by
  simp [readByte, h]

theorem keyDown_writeKey (k j : Key) (down : Bool) (s : State) :
    keyDown j (writeKey k down s) = if j = k then down else keyDown j s := by
  by_cases h : j = k
  · subst h; simp [keyDown]
  · have hv : k.val ≠ j.val := fun e => h (Fin.ext e.symm)
    simp [keyDown, h, Vector.getElem_set_ne _ _ hv]

/-! ## Registers and bytes through the updates that leave them alone -/

@[simp] theorem reg_setIndex (w : Word) (q : Reg) (s : State) : reg q (setIndex w s) = reg q s := rfl
@[simp] theorem reg_setPc (w : Word) (q : Reg) (s : State) : reg q (setPc w s) = reg q s := rfl
@[simp] theorem reg_advance (q : Reg) (s : State) : reg q (advance s) = reg q s := rfl
@[simp] theorem reg_skipIf (c : Bool) (q : Reg) (s : State) : reg q (skipIf c s) = reg q s := by cases c <;> rfl
@[simp] theorem reg_setDelay (b : Byte) (q : Reg) (s : State) : reg q (setDelay b s) = reg q s := rfl
@[simp] theorem reg_setSound (b : Byte) (q : Reg) (s : State) : reg q (setSound b s) = reg q s := rfl
@[simp] theorem reg_storeBytes (a : Nat) (bytes : List Byte) (q : Reg) (s : State) : reg q (storeBytes a bytes s) = reg q s := rfl
@[simp] theorem reg_showDisplay (d : Display) (q : Reg) (s : State) : reg q (showDisplay d s) = reg q s := rfl
@[simp] theorem reg_tick (q : Reg) (s : State) : reg q (tick s) = reg q s := rfl
@[simp] theorem reg_drawRandom (q : Reg) (s : State) : reg q (drawRandom s).2 = reg q s := rfl
@[simp] theorem reg_writeKey (k : Key) (down : Bool) (q : Reg) (s : State) : reg q (writeKey k down s) = reg q s := rfl
@[simp] theorem reg_drawAck (q : Reg) (s : State) : reg q (drawAck s) = reg q s := rfl

@[simp] theorem readByte_writeReg (r : Reg) (b : Byte) (q : Nat) (s : State) : readByte q (writeReg r b s) = readByte q s := rfl
@[simp] theorem readByte_writeFlag (f : Bool) (q : Nat) (s : State) : readByte q (writeFlag f s) = readByte q s := rfl
@[simp] theorem readByte_setIndex (w : Word) (q : Nat) (s : State) : readByte q (setIndex w s) = readByte q s := rfl
@[simp] theorem readByte_setPc (w : Word) (q : Nat) (s : State) : readByte q (setPc w s) = readByte q s := rfl
@[simp] theorem readByte_advance (q : Nat) (s : State) : readByte q (advance s) = readByte q s := rfl
@[simp] theorem readByte_skipIf (c : Bool) (q : Nat) (s : State) : readByte q (skipIf c s) = readByte q s := by cases c <;> rfl
@[simp] theorem readByte_setDelay (b : Byte) (q : Nat) (s : State) : readByte q (setDelay b s) = readByte q s := rfl
@[simp] theorem readByte_setSound (b : Byte) (q : Nat) (s : State) : readByte q (setSound b s) = readByte q s := rfl
@[simp] theorem readByte_showDisplay (d : Display) (q : Nat) (s : State) : readByte q (showDisplay d s) = readByte q s := rfl
@[simp] theorem readByte_tick (q : Nat) (s : State) : readByte q (tick s) = readByte q s := rfl
@[simp] theorem readByte_drawRandom (q : Nat) (s : State) : readByte q (drawRandom s).2 = readByte q s := rfl
@[simp] theorem readByte_writeKey (k : Key) (down : Bool) (q : Nat) (s : State) : readByte q (writeKey k down s) = readByte q s := rfl
@[simp] theorem readByte_drawAck (q : Nat) (s : State) : readByte q (drawAck s) = readByte q s := rfl
@[simp] theorem readByte_loadUpTo (x : Reg) (q : Nat) (s : State) : readByte q (loadUpTo x s) = readByte q s := rfl

end Sys2Proof.Machine
end

