-- ==== Sys2Proof/Laws/Ops.lean ====
section
/-! SUPPORT. One lemma per shared operation that says everything it can do; proofs cite it instead of unfolding. -/

namespace Sys2Proof.Machine

/-! ## Numbers -/

theorem sumByte_toNat (x y : Byte) : (sumByte x y).toNat = (x.toNat + y.toNat) % 256 := by simp [sumByte]

theorem diffByte_toNat (x y : Byte) : (diffByte x y).toNat = (x.toNat + 256 - y.toNat) % 256 := by simp [diffByte]

theorem halfByte_toNat (x : Byte) : (halfByte x).toNat = x.toNat / 2 := by simp [halfByte]; omega

theorem doubleByte_toNat (x : Byte) : (doubleByte x).toNat = x.toNat * 2 % 256 := by simp [doubleByte]

theorem zeroExtend_toNat (nnn : Addr) : (zeroExtend nnn).toNat = nnn.toNat := by
  have := nnn.isLt; simp [zeroExtend]; omega

theorem offsetTarget_toNat (nnn : Addr) (v0 : Byte) : (offsetTarget nnn v0).toNat = nnn.toNat + v0.toNat := by
  have := nnn.isLt; simp [offsetTarget]; omega

theorem indexPlus_toNat (i : Word) (n : Nat) : (indexPlus i n).toNat = (i.toNat + n) % 0x10000 := by simp [indexPlus]

theorem glyphAddr_toNat (x : Byte) : (glyphAddr x).toNat = 5 * x.toNat := by simp [glyphAddr]; omega

theorem countDown_toNat (b : Byte) : (countDown b).toNat = b.toNat - 1 := by
  unfold countDown
  split_ifs with h
  · bv_omega
  · omega

theorem shiftedOutRight_iff (x : Byte) : shiftedOutRight x = decide (x.toNat % 2 = 1) := by
  simp [shiftedOutRight, BitVec.getLsbD, Nat.testBit_zero]

theorem shiftedOutLeft_iff (x : Byte) : shiftedOutLeft x = decide (x.toNat ≥ 128) := by
  have h := x.isLt
  simp only [shiftedOutLeft, BitVec.getLsbD, Nat.testBit_eq_decide_div_mod_eq]
  congr 1
  apply propext
  norm_num
  omega

@[simp] theorem bcdDigits_length (x : Byte) : (bcdDigits x).length = 3 := rfl

@[simp] theorem regsUpTo_length (x : Reg) (s : State) : (regsUpTo x s).length = x.val + 1 := by simp [regsUpTo]

theorem regsUpTo_getD (x : Reg) (s : State) (r : Reg) (h : r.val ≤ x.val) :
    (regsUpTo x s).getD r.val 0 = reg r s := by
  have hr : r.val < x.val + 1 := by omega
  have hf : Fin.ofNat 16 r.val = r := by ext; simp [Fin.ofNat]
  simp only [regsUpTo, List.getD, List.getElem?_map, List.getElem?_range hr, Option.map_some, Option.getD_some, hf]

/-! ## Checks and faults -/

theorem checkRead_none {lo hi : Nat} : checkRead lo hi = none ↔ hi ≤ 0xFFF := by
  unfold checkRead; split_ifs with h <;> simp <;> omega

theorem checkRead_some {lo hi : Nat} (h : hi > 0xFFF) :
    checkRead lo hi = some (.memoryAddressOutOfRange .read (max lo 0x1000)) := by simp [checkRead, h]

theorem checkWrite_none {lo hi : Nat} : checkWrite lo hi = none ↔ 0x200 ≤ lo ∧ hi ≤ 0xFFF := by
  unfold checkWrite; split_ifs with h h' <;> simp <;> omega

theorem checkWrite_protect {lo hi : Nat} (h : lo < 0x200) :
    checkWrite lo hi = some (.memoryAddressOutOfRange .protect lo) := by simp [checkWrite, h]

theorem checkWrite_write {lo hi : Nat} (h : 0x200 ≤ lo) (h' : hi > 0xFFF) :
    checkWrite lo hi = some (.memoryAddressOutOfRange .write (max lo 0x1000)) := by
  simp [checkWrite, Nat.not_lt.2 h, h']

theorem unlessFault_next {check : Option Fault} {t u : State} :
    unlessFault check t = .next u ↔ check = none ∧ t = u := by
  cases check <;> simp [unlessFault, raise]

theorem unlessFault_refused {check : Option Fault} {t : State} {r : Refusal} : unlessFault check t ≠ .refused r := by
  cases check <;> simp [unlessFault, raise]

/-! ## The stack -/

theorem push_some {w : Word} {s t : State} : push w s = some t ↔
    ∃ h : s.sp.val < 16,
      t = { s with stack := s.stack.set s.sp.val w, sp := ⟨s.sp.val + 1, by omega⟩ } := by
  unfold push; split_ifs with h
  · simp [h, eq_comm]
  · simp [h]

theorem push_none {w : Word} {s : State} : push w s = none ↔ s.sp.val = 16 := by
  have := s.sp.isLt
  unfold push; split_ifs with h <;> simp <;> omega

theorem pop_some {w : Word} {s t : State} : pop s = some (w, t) ↔
    ∃ _ : 0 < s.sp.val, w = s.stack[s.sp.val - 1] ∧ t = { s with sp := ⟨s.sp.val - 1, by omega⟩ } := by
  unfold pop; split_ifs with h
  · simp [h, eq_comm]
  · simp [h]

theorem pop_none {s : State} : pop s = none ↔ s.sp.val = 0 := by
  unfold pop; split_ifs with h <;> simp <;> omega

/-! ## Memory -/

/-- A byte after a store: the stored byte inside the block, the old byte outside it. -/
theorem readByte_storeBytes (a c : Nat) (bytes : List Byte) (s : State) :
    readByte c (storeBytes a bytes s) =
      if a ≤ c ∧ c < a + bytes.length then bytes.getD (c - a) 0 else readByte c s :=
  memRead_memWriteBytes s.memory a c bytes

/-! ## Keys -/

theorem lowestKey_none {s : State} : lowestKey s = none ↔ ∀ k, keyDown k s = false := by
  simp [lowestKey, List.find?_eq_none]

theorem lowestKey_some {s : State} {k : Key} (h : lowestKey s = some k) :
    keyDown k s = true ∧ ∀ j < k, keyDown j s = false := by
  obtain ⟨hk, as, bs, hsplit, hbefore⟩ := List.find?_eq_some_iff_append.1 h
  refine ⟨hk, fun j hj => ?_⟩
  have hmem : j ∈ List.finRange 16 := List.mem_finRange j
  rw [hsplit] at hmem
  rcases List.mem_append.1 hmem with hm | hm
  · simpa using hbefore j hm
  · have hsorted : (List.finRange 16).Pairwise (· < ·) := by decide
    rw [hsplit] at hsorted
    rcases List.mem_cons.1 hm with rfl | hm
    · exact absurd hj (lt_irrefl _)
    · have := List.rel_of_pairwise_cons (List.pairwise_append.1 hsorted).2.1 hm
      exact absurd (hj.trans this) (lt_irrefl _)

/-! ## The cycle -/

theorem fetch_error {s : State} (h : s.pc.toNat > 0x0FFE) :
    fetch s = .error (.memoryAddressOutOfRange .fetch s.pc.toNat) := by simp [fetch, h]

theorem fetch_ok {s : State} {op : Word} : fetch s = .ok op ↔
    s.pc.toNat ≤ 0x0FFE ∧ op = wordOfBytes (readByte s.pc.toNat s) (readByte (s.pc.toNat + 1) s) := by
  unfold fetch; split_ifs with h
  · simp; omega
  · simp [eq_comm]; omega

/-- The keys are no part of what a fetch reads. -/
@[simp] theorem fetch_writeKey (k : Key) (down : Bool) (s : State) : fetch (writeKey k down s) = fetch s := rfl

@[simp] theorem fetch_drawAck (s : State) : fetch (drawAck s) = fetch s := rfl

theorem thenTick_next {r : Result} {t : State} : thenTick r = .next t ↔ ∃ u, r = .next u ∧ t = tick u := by
  cases r <;> simp [thenTick, eq_comm]

/-- Everything a completed cycle can have done. -/
theorem step_next_cases {s t : State} (h : step s = .next t) :
    ∃ op, fetch s = .ok op ∧
      ((∃ i u, decodeWord op = .ok i ∧ exec i s = .next u ∧ t = tick u) ∨
       (∃ e, decodeWord op = .error e ∧ t = tick (advance s))) := by
  unfold step at h
  split at h
  · cases h
  · rename_i op hop
    refine ⟨op, hop, ?_⟩
    split at h
    · rename_i i hi
      obtain ⟨u, hu, rfl⟩ := thenTick_next.1 h
      exact .inl ⟨i, u, hi, hu, rfl⟩
    · rename_i e he
      exact .inr ⟨e, he, by cases h; rfl⟩

/-! ## The host's side -/

theorem soundActive_iff (s : State) : soundActive s = true ↔ s.soundTimer.toNat > 0 := by simp [soundActive]

@[simp] theorem hostMoves_nil (machine : Option State) : hostMoves [] machine = .ok machine := rfl

/-- A move that answers hands its post-state to the rest of the list. -/
theorem hostMoves_cons {m : HostMove} {machine : Option State} {t : State} {r : HostReply} (rest : List HostMove)
    (h : hostMove m machine = .ok (t, r)) : hostMoves (m :: rest) machine = hostMoves rest (some t) := by
  simp only [hostMoves, h]

end Sys2Proof.Machine
end

