-- ==== Sys2Proof/Laws/Frames.lean ====
section
/-! SUPPORT. The frame of every shared update: which places it may change; frames compose along a sequence of updates. -/

namespace Sys2Proof.Machine

theorem sameAt_refl (p : Place) (s : State) : sameAt p s s := by cases p <;> rfl

theorem sameAt_trans {p : Place} {s t u : State} (h : sameAt p s t) (h' : sameAt p t u) : sameAt p s u := by
  cases p <;> exact Eq.trans h' h

theorem changesOnly_refl (w : Place → Prop) (s : State) : ChangesOnly w s s := fun p _ => sameAt_refl p s

/-- One update after another changes at most what either may. -/
theorem changesOnly_trans {w : Place → Prop} {s t u : State} (h : ChangesOnly w s t) (h' : ChangesOnly w t u) :
    ChangesOnly w s u := fun p hp => sameAt_trans (h p hp) (h' p hp)

theorem changesOnly_mono {w w' : Place → Prop} {s t : State} (h : ChangesOnly w s t) (sub : ∀ p, w p → w' p) :
    ChangesOnly w' s t := fun p hp => h p fun hw => hp (sub p hw)

theorem changesOnly_writeReg {w : Place → Prop} (r : Reg) (b : Byte) (s : State) (hr : w (.reg r)) :
    ChangesOnly w s (writeReg r b s) := by
  intro p hp
  cases p with
  | reg q =>
    have hq : q ≠ r := fun e => hp (e ▸ hr)
    exact reg_writeReg_other r q b s hq
  | _ => rfl

theorem changesOnly_writeFlag {w : Place → Prop} (b : Bool) (s : State) (hr : w (.reg vf)) :
    ChangesOnly w s (writeFlag b s) := changesOnly_writeReg vf (flagByte b) s hr

theorem changesOnly_setIndex {w : Place → Prop} (i : Word) (s : State) (h : w .index) :
    ChangesOnly w s (setIndex i s) := by
  intro p hp; cases p with
  | index => exact absurd h hp
  | _ => rfl

theorem changesOnly_setPc {w : Place → Prop} (i : Word) (s : State) (h : w .pc) : ChangesOnly w s (setPc i s) := by
  intro p hp; cases p with
  | pc => exact absurd h hp
  | _ => rfl

theorem changesOnly_advance {w : Place → Prop} (s : State) (h : w .pc) : ChangesOnly w s (advance s) :=
  changesOnly_setPc _ s h

theorem changesOnly_skipIf {w : Place → Prop} (c : Bool) (s : State) (h : w .pc) : ChangesOnly w s (skipIf c s) := by
  cases c <;> exact changesOnly_setPc _ s h

theorem changesOnly_setDelay {w : Place → Prop} (b : Byte) (s : State) (h : w .delayTimer) :
    ChangesOnly w s (setDelay b s) := by
  intro p hp; cases p with
  | delayTimer => exact absurd h hp
  | _ => rfl

theorem changesOnly_setSound {w : Place → Prop} (b : Byte) (s : State) (h : w .soundTimer) :
    ChangesOnly w s (setSound b s) := by
  intro p hp; cases p with
  | soundTimer => exact absurd h hp
  | _ => rfl

theorem changesOnly_storeBytes {w : Place → Prop} (a : Nat) (bytes : List Byte) (s : State)
    (h : ∀ k < bytes.length, w (.byte (a + k))) : ChangesOnly w s (storeBytes a bytes s) := by
  intro p hp; cases p with
  | byte c =>
    have out : ¬(a ≤ c ∧ c < a + bytes.length) := fun hc => by
      obtain ⟨k, rfl⟩ := Nat.exists_eq_add_of_le hc.1
      exact hp (h k (by omega))
    show readByte c (storeBytes a bytes s) = readByte c s
    rw [readByte_storeBytes, if_neg out]
  | _ => rfl

theorem changesOnly_loadUpTo {w : Place → Prop} (x : Reg) (s : State) (h : ∀ r : Reg, r.val ≤ x.val → w (.reg r)) :
    ChangesOnly w s (loadUpTo x s) := by
  intro p hp; cases p with
  | reg r => exact (reg_loadUpTo x r s).trans (if_neg fun hr => hp (h r hr))
  | _ => simp only [sameAt, readByte, keyDown, pixel, loadUpTo_index, loadUpTo_pc, loadUpTo_sp, loadUpTo_stack,
      loadUpTo_delayTimer, loadUpTo_soundTimer, loadUpTo_memory, loadUpTo_keyboard, loadUpTo_display,
      loadUpTo_drawFlag, loadUpTo_rng]

theorem changesOnly_drawRandom {w : Place → Prop} (s : State) (h : w .rng) : ChangesOnly w s (drawRandom s).2 := by
  intro p hp; cases p with
  | rng => exact absurd h hp
  | _ => rfl

theorem changesOnly_showDisplay {w : Place → Prop} (d : Display) (s : State) (h : w .drawFlag)
    (hd : ∀ x y, ¬ w (.pixel x y) → pixelOf d x y = pixel x y s) : ChangesOnly w s (showDisplay d s) := by
  intro p hp; cases p with
  | drawFlag => exact absurd h hp
  | pixel x y => exact hd x y hp
  | _ => rfl

theorem changesOnly_tick {w : Place → Prop} (s : State) (hd : w .delayTimer) (hs : w .soundTimer) :
    ChangesOnly w s (tick s) := by
  intro p hp; cases p with
  | delayTimer => exact absurd hd hp
  | soundTimer => exact absurd hs hp
  | _ => rfl

theorem changesOnly_push {w : Place → Prop} {x : Word} {s t : State} (h : push x s = some t) (hsp : w .sp)
    (hst : ∀ k : Fin 16, k.val = s.sp.val → w (.stack k)) : ChangesOnly w s t := by
  obtain ⟨room, rfl⟩ := push_some.1 h
  intro p hp; cases p with
  | sp => exact absurd hsp hp
  | stack k =>
    have hk : s.sp.val ≠ k.val := fun e => hp (hst k e.symm)
    simp [sameAt, Vector.getElem_set_ne _ _ hk]
  | _ => rfl

theorem changesOnly_pop {w : Place → Prop} {x : Word} {s t : State} (h : pop s = some (x, t)) (hsp : w .sp) :
    ChangesOnly w s t := by
  obtain ⟨_, _, rfl⟩ := pop_some.1 h
  intro p hp; cases p with
  | sp => exact absurd hsp hp
  | _ => rfl

theorem changesOnly_writeKey {w : Place → Prop} (k : Key) (down : Bool) (s : State) (h : w (.key k)) :
    ChangesOnly w s (writeKey k down s) := by
  intro p hp; cases p with
  | key j =>
    have hj : j ≠ k := fun e => hp (e ▸ h)
    exact (keyDown_writeKey k j down s).trans (if_neg hj)
  | _ => rfl

theorem changesOnly_drawAck {w : Place → Prop} (s : State) (h : w .drawFlag) : ChangesOnly w s (drawAck s) := by
  intro p hp; cases p with
  | drawFlag => exact absurd h hp
  | _ => rfl

/-! ## Results that agree outside some places -/

theorem agreeOutside_refl (w : Place → Prop) (r : Result) : AgreeOutside w r r := by
  cases r
  · exact changesOnly_refl w _
  · rfl
  · rfl

/-- Two completions agree when their states do. -/
theorem agreeOutside_next {w : Place → Prop} {t t' : State} (h : ChangesOnly w t t') :
    AgreeOutside w (.next t) (.next t') := h

/-- The same check, then states that agree. -/
theorem agreeOutside_unlessFault {w : Place → Prop} (check : Option Fault) {t t' : State} (h : ChangesOnly w t t') :
    AgreeOutside w (unlessFault check t) (unlessFault check t') := by
  cases check
  · exact h
  · rfl

end Sys2Proof.Machine
end

