-- ==== Sys2Proof/Laws/PerInstr.lean ====
section
/-! SUPPORT. A fact of every instruction as syntax, one lemma per constructor: the word the encoder writes is the
instruction's own row of the opcode map (30_encoding.md R69). -/

namespace Sys2Proof.Laws.EncodesInItsRow

/-- The instruction's row stands in the opcode map under its number and accepts its word. -/
def Statement (i : Instr) : Prop :=
  ∃ row ∈ opcodeMap, row.number = i.rowNumber ∧ encode i &&& row.mask = row.value

theorem cls : Statement .cls :=
  ⟨⟨1, 0xFFFF, 0x00E0⟩, by simp [opcodeMap], rfl, by decide⟩

theorem ret : Statement .ret :=
  ⟨⟨2, 0xFFFF, 0x00EE⟩, by simp [opcodeMap], rfl, by decide⟩

theorem jp (nnn : Addr) : Statement (.jp nnn) := by
  refine ⟨⟨3, 0xF000, 0x1000⟩, by simp [opcodeMap], rfl, BitVec.eq_of_toNat_eq ?_⟩
  rw [and_F000_toNat, encode, encodeNNN_toNat nnn (by omega)]
  have := nnn.isLt; simp; omega

theorem call (nnn : Addr) : Statement (.call nnn) := by
  refine ⟨⟨4, 0xF000, 0x2000⟩, by simp [opcodeMap], rfl, BitVec.eq_of_toNat_eq ?_⟩
  rw [and_F000_toNat, encode, encodeNNN_toNat nnn (by omega)]
  have := nnn.isLt; simp; omega

theorem seByte (x : Reg) (nn : Byte) : Statement (.seByte x nn) := by
  refine ⟨⟨5, 0xF000, 0x3000⟩, by simp [opcodeMap], rfl, BitVec.eq_of_toNat_eq ?_⟩
  rw [and_F000_toNat, encode, encodeXNN_toNat x nn (by omega)]
  have := nn.isLt; simp; omega

theorem sneByte (x : Reg) (nn : Byte) : Statement (.sneByte x nn) := by
  refine ⟨⟨6, 0xF000, 0x4000⟩, by simp [opcodeMap], rfl, BitVec.eq_of_toNat_eq ?_⟩
  rw [and_F000_toNat, encode, encodeXNN_toNat x nn (by omega)]
  have := nn.isLt; simp; omega

theorem seReg (x y : Reg) : Statement (.seReg x y) := by
  refine ⟨⟨7, 0xF00F, 0x5000⟩, by simp [opcodeMap], rfl, BitVec.eq_of_toNat_eq ?_⟩
  rw [and_F00F_toNat, encode, encodeXYN_toNat x y (by omega) (by omega)]
  simp; omega

theorem ldByte (x : Reg) (nn : Byte) : Statement (.ldByte x nn) := by
  refine ⟨⟨8, 0xF000, 0x6000⟩, by simp [opcodeMap], rfl, BitVec.eq_of_toNat_eq ?_⟩
  rw [and_F000_toNat, encode, encodeXNN_toNat x nn (by omega)]
  have := nn.isLt; simp; omega

theorem addByte (x : Reg) (nn : Byte) : Statement (.addByte x nn) := by
  refine ⟨⟨9, 0xF000, 0x7000⟩, by simp [opcodeMap], rfl, BitVec.eq_of_toNat_eq ?_⟩
  rw [and_F000_toNat, encode, encodeXNN_toNat x nn (by omega)]
  have := nn.isLt; simp; omega

theorem ldReg (x y : Reg) : Statement (.ldReg x y) := by
  refine ⟨⟨10, 0xF00F, 0x8000⟩, by simp [opcodeMap], rfl, BitVec.eq_of_toNat_eq ?_⟩
  rw [and_F00F_toNat, encode, encodeXYN_toNat x y (by omega) (by omega)]
  simp; omega

theorem orReg (x y : Reg) : Statement (.orReg x y) := by
  refine ⟨⟨11, 0xF00F, 0x8001⟩, by simp [opcodeMap], rfl, BitVec.eq_of_toNat_eq ?_⟩
  rw [and_F00F_toNat, encode, encodeXYN_toNat x y (by omega) (by omega)]
  simp; omega

theorem andReg (x y : Reg) : Statement (.andReg x y) := by
  refine ⟨⟨12, 0xF00F, 0x8002⟩, by simp [opcodeMap], rfl, BitVec.eq_of_toNat_eq ?_⟩
  rw [and_F00F_toNat, encode, encodeXYN_toNat x y (by omega) (by omega)]
  simp; omega

theorem xorReg (x y : Reg) : Statement (.xorReg x y) := by
  refine ⟨⟨13, 0xF00F, 0x8003⟩, by simp [opcodeMap], rfl, BitVec.eq_of_toNat_eq ?_⟩
  rw [and_F00F_toNat, encode, encodeXYN_toNat x y (by omega) (by omega)]
  simp; omega

theorem addReg (x y : Reg) : Statement (.addReg x y) := by
  refine ⟨⟨14, 0xF00F, 0x8004⟩, by simp [opcodeMap], rfl, BitVec.eq_of_toNat_eq ?_⟩
  rw [and_F00F_toNat, encode, encodeXYN_toNat x y (by omega) (by omega)]
  simp; omega

theorem subReg (x y : Reg) : Statement (.subReg x y) := by
  refine ⟨⟨15, 0xF00F, 0x8005⟩, by simp [opcodeMap], rfl, BitVec.eq_of_toNat_eq ?_⟩
  rw [and_F00F_toNat, encode, encodeXYN_toNat x y (by omega) (by omega)]
  simp; omega

theorem shrReg (x y : Reg) : Statement (.shrReg x y) := by
  refine ⟨⟨16, 0xF00F, 0x8006⟩, by simp [opcodeMap], rfl, BitVec.eq_of_toNat_eq ?_⟩
  rw [and_F00F_toNat, encode, encodeXYN_toNat x y (by omega) (by omega)]
  simp; omega

theorem subnReg (x y : Reg) : Statement (.subnReg x y) := by
  refine ⟨⟨17, 0xF00F, 0x8007⟩, by simp [opcodeMap], rfl, BitVec.eq_of_toNat_eq ?_⟩
  rw [and_F00F_toNat, encode, encodeXYN_toNat x y (by omega) (by omega)]
  simp; omega

theorem shlReg (x y : Reg) : Statement (.shlReg x y) := by
  refine ⟨⟨18, 0xF00F, 0x800E⟩, by simp [opcodeMap], rfl, BitVec.eq_of_toNat_eq ?_⟩
  rw [and_F00F_toNat, encode, encodeXYN_toNat x y (by omega) (by omega)]
  simp; omega

theorem sneReg (x y : Reg) : Statement (.sneReg x y) := by
  refine ⟨⟨19, 0xF00F, 0x9000⟩, by simp [opcodeMap], rfl, BitVec.eq_of_toNat_eq ?_⟩
  rw [and_F00F_toNat, encode, encodeXYN_toNat x y (by omega) (by omega)]
  simp; omega

theorem ldIndex (nnn : Addr) : Statement (.ldIndex nnn) := by
  refine ⟨⟨20, 0xF000, 0xA000⟩, by simp [opcodeMap], rfl, BitVec.eq_of_toNat_eq ?_⟩
  rw [and_F000_toNat, encode, encodeNNN_toNat nnn (by omega)]
  have := nnn.isLt; simp; omega

theorem jpV0 (nnn : Addr) : Statement (.jpV0 nnn) := by
  refine ⟨⟨21, 0xF000, 0xB000⟩, by simp [opcodeMap], rfl, BitVec.eq_of_toNat_eq ?_⟩
  rw [and_F000_toNat, encode, encodeNNN_toNat nnn (by omega)]
  have := nnn.isLt; simp; omega

theorem rnd (x : Reg) (nn : Byte) : Statement (.rnd x nn) := by
  refine ⟨⟨22, 0xF000, 0xC000⟩, by simp [opcodeMap], rfl, BitVec.eq_of_toNat_eq ?_⟩
  rw [and_F000_toNat, encode, encodeXNN_toNat x nn (by omega)]
  have := nn.isLt; simp; omega

theorem drw (x y : Reg) (n : Nibble) : Statement (.drw x y n) := by
  refine ⟨⟨23, 0xF000, 0xD000⟩, by simp [opcodeMap], rfl, BitVec.eq_of_toNat_eq ?_⟩
  rw [and_F000_toNat, encode, encodeXYN_toNat x y (by omega) n.isLt]
  have := n.isLt; simp; omega

theorem skp (x : Reg) : Statement (.skp x) := by
  refine ⟨⟨24, 0xF0FF, 0xE09E⟩, by simp [opcodeMap], rfl, BitVec.eq_of_toNat_eq ?_⟩
  rw [and_F0FF_toNat, encode, encodeXKK_toNat x (by omega)]
  simp; omega

theorem sknp (x : Reg) : Statement (.sknp x) := by
  refine ⟨⟨25, 0xF0FF, 0xE0A1⟩, by simp [opcodeMap], rfl, BitVec.eq_of_toNat_eq ?_⟩
  rw [and_F0FF_toNat, encode, encodeXKK_toNat x (by omega)]
  simp; omega

theorem ldRegDelay (x : Reg) : Statement (.ldRegDelay x) := by
  refine ⟨⟨26, 0xF0FF, 0xF007⟩, by simp [opcodeMap], rfl, BitVec.eq_of_toNat_eq ?_⟩
  rw [and_F0FF_toNat, encode, encodeXKK_toNat x (by omega)]
  simp; omega

theorem ldRegKey (x : Reg) : Statement (.ldRegKey x) := by
  refine ⟨⟨27, 0xF0FF, 0xF00A⟩, by simp [opcodeMap], rfl, BitVec.eq_of_toNat_eq ?_⟩
  rw [and_F0FF_toNat, encode, encodeXKK_toNat x (by omega)]
  simp; omega

theorem ldDelayReg (x : Reg) : Statement (.ldDelayReg x) := by
  refine ⟨⟨28, 0xF0FF, 0xF015⟩, by simp [opcodeMap], rfl, BitVec.eq_of_toNat_eq ?_⟩
  rw [and_F0FF_toNat, encode, encodeXKK_toNat x (by omega)]
  simp; omega

theorem ldSoundReg (x : Reg) : Statement (.ldSoundReg x) := by
  refine ⟨⟨29, 0xF0FF, 0xF018⟩, by simp [opcodeMap], rfl, BitVec.eq_of_toNat_eq ?_⟩
  rw [and_F0FF_toNat, encode, encodeXKK_toNat x (by omega)]
  simp; omega

theorem addIndex (x : Reg) : Statement (.addIndex x) := by
  refine ⟨⟨30, 0xF0FF, 0xF01E⟩, by simp [opcodeMap], rfl, BitVec.eq_of_toNat_eq ?_⟩
  rw [and_F0FF_toNat, encode, encodeXKK_toNat x (by omega)]
  simp; omega

theorem ldGlyph (x : Reg) : Statement (.ldGlyph x) := by
  refine ⟨⟨31, 0xF0FF, 0xF029⟩, by simp [opcodeMap], rfl, BitVec.eq_of_toNat_eq ?_⟩
  rw [and_F0FF_toNat, encode, encodeXKK_toNat x (by omega)]
  simp; omega

theorem ldBcd (x : Reg) : Statement (.ldBcd x) := by
  refine ⟨⟨32, 0xF0FF, 0xF033⟩, by simp [opcodeMap], rfl, BitVec.eq_of_toNat_eq ?_⟩
  rw [and_F0FF_toNat, encode, encodeXKK_toNat x (by omega)]
  simp; omega

theorem storeRegs (x : Reg) : Statement (.storeRegs x) := by
  refine ⟨⟨33, 0xF0FF, 0xF055⟩, by simp [opcodeMap], rfl, BitVec.eq_of_toNat_eq ?_⟩
  rw [and_F0FF_toNat, encode, encodeXKK_toNat x (by omega)]
  simp; omega

theorem loadRegs (x : Reg) : Statement (.loadRegs x) := by
  refine ⟨⟨34, 0xF0FF, 0xF065⟩, by simp [opcodeMap], rfl, BitVec.eq_of_toNat_eq ?_⟩
  rw [and_F0FF_toNat, encode, encodeXKK_toNat x (by omega)]
  simp; omega

end Sys2Proof.Laws.EncodesInItsRow
end

