-- ==== Sys2Proof/Tests/Slice0.lean ====
section
/-! SUPPORT. The model's own tests. Expected values come from the spec: the words from the "Encoding:" lines and examples
of 41_control_transfer.md to 46_timers_and_keys.md, the vectors from 95_test_vectors.md (their ids stand in the
docstrings). Every `witness_<Obligation>` shows concrete states and operands that meet the hypotheses of that
statement, at the ends of each clause's range. -/

namespace Sys2Proof.Machine

/-! ## Well-formedness -/

theorem test_wordWellFormed_refuses_family0 : wordWellFormed 0x0000 = false ∧ wordWellFormed 0x01E0 = false := by decide
theorem test_wordWellFormed_refuses_family5 : wordWellFormed 0x5001 = false := by decide
theorem test_wordWellFormed_refuses_family8 : wordWellFormed 0x8238 = false ∧ wordWellFormed 0x800F = false := by decide
theorem test_wordWellFormed_refuses_family9 : wordWellFormed 0x9341 = false := by decide
theorem test_wordWellFormed_refuses_familyE : wordWellFormed 0xE59F = false := by decide
theorem test_wordWellFormed_refuses_familyF : wordWellFormed 0xF075 = false := by decide
theorem test_wordWellFormed_accepts : wordWellFormed 0x00E0 = true ∧ wordWellFormed 0xFF65 = true := by decide
/-- R203: 3585 bytes are too many, 3584 are not. -/
theorem test_programWellFormed (b : Byte) :
    programWellFormed (List.replicate 3585 b) = false ∧ programWellFormed (List.replicate 3584 b) = true := by
  simp only [programWellFormed, List.length_replicate]; decide

/-! ## Decoding: one word per constructor, written from its encoding -/

/-- 00E0, 00EE, 1NNN, 2NNN, BNNN (41, 45). -/
theorem test_decode_control :
    decodeTableWord 16 0x00E0 = some .cls ∧ decodeTableWord 16 0x00EE = some .ret ∧
    decodeTableWord 16 0x1ABC = some (.jp 0xABC) ∧ decodeTableWord 16 0x220A = some (.call 0x20A) ∧
    decodeTableWord 16 0xB300 = some (.jpV0 0x300) := by decide

/-- 3XNN, 4XNN, 5XY0, 9XY0, EX9E, EXA1 (42). -/
theorem test_decode_skips :
    decodeTableWord 16 0x3342 = some (.seByte 3 0x42) ∧ decodeTableWord 16 0x4A01 = some (.sneByte 10 0x01) ∧
    decodeTableWord 16 0x5340 = some (.seReg 3 4) ∧ decodeTableWord 16 0x9340 = some (.sneReg 3 4) ∧
    decodeTableWord 16 0xE59E = some (.skp 5) ∧ decodeTableWord 16 0xE5A1 = some (.sknp 5) := by decide

/-- 6XNN, 7XNN, 8XYN, CXNN (43). -/
theorem test_decode_alu :
    decodeTableWord 16 0x6AFF = some (.ldByte 10 0xFF) ∧ decodeTableWord 16 0x7301 = some (.addByte 3 0x01) ∧
    decodeTableWord 16 0x8120 = some (.ldReg 1 2) ∧ decodeTableWord 16 0x8121 = some (.orReg 1 2) ∧
    decodeTableWord 16 0x8122 = some (.andReg 1 2) ∧ decodeTableWord 16 0x8123 = some (.xorReg 1 2) ∧
    decodeTableWord 16 0x8124 = some (.addReg 1 2) ∧ decodeTableWord 16 0x8125 = some (.subReg 1 2) ∧
    decodeTableWord 16 0x8126 = some (.shrReg 1 2) ∧ decodeTableWord 16 0x8127 = some (.subnReg 1 2) ∧
    decodeTableWord 16 0x812E = some (.shlReg 1 2) ∧ decodeTableWord 16 0xC30F = some (.rnd 3 0x0F) := by decide

/-- ANNN, FX1E, FX29, FX33, FX55, FX65 (44). -/
theorem test_decode_index :
    decodeTableWord 16 0xAFFF = some (.ldIndex 0xFFF) ∧ decodeTableWord 16 0xF11E = some (.addIndex 1) ∧
    decodeTableWord 16 0xF429 = some (.ldGlyph 4) ∧ decodeTableWord 16 0xF733 = some (.ldBcd 7) ∧
    decodeTableWord 16 0xF355 = some (.storeRegs 3) ∧ decodeTableWord 16 0xFF65 = some (.loadRegs 15) := by decide

/-- DXYN, FX07, FX0A, FX15, FX18 (45, 46). -/
theorem test_decode_display_timers :
    decodeTableWord 16 0xD012 = some (.drw 0 1 2) ∧ decodeTableWord 16 0xF107 = some (.ldRegDelay 1) ∧
    decodeTableWord 16 0xF20A = some (.ldRegKey 2) ∧ decodeTableWord 16 0xF015 = some (.ldDelayReg 0) ∧
    decodeTableWord 16 0xF218 = some (.ldSoundReg 2) := by decide

/-- The decoder refuses what T-UNK-1 to T-UNK-8 list, and a byte list shorter than an instruction. -/
theorem test_decode_unknown :
    decodeTableWord 16 0x5001 = none ∧ decodeTableWord 16 0x00E1 = none ∧ decodeTableWord 16 0x01E0 = none ∧
    decodeTableWord 16 0x8238 = none ∧ decodeTableWord 16 0x9341 = none ∧ decodeTableWord 16 0xE59F = none ∧
    decodeTableWord 16 0xF075 = none ∧ decode [0x12] = .error .truncated := by decide

/-- The encoder writes the same words (R69). -/
theorem test_encode :
    encode (.drw 0 1 2) = 0xD012 ∧ encode (.shrReg 2 3) = 0x8236 ∧ encode (.sknp 5) = 0xE5A1 ∧
    encodeBytes (.call 0x20A) = [0x22, 0x0A] := by decide

/-! ## Builders -/

/-- The vector base state of 95_test_vectors.md: reset with `draw_flag` 0, the word at 0x200. -/
def vector (word : Nat) : State := (drawAck State.reset).withFetchWord 16 word

/-- Set one register. -/
def withReg (s : State) (r : Reg) (b : Byte) : State := writeReg r b s

/-- Set `I`. -/
def withIndex (s : State) (i : Word) : State := setIndex i s

/-- Set bytes of memory. -/
def withBytes (s : State) (a : Nat) (bytes : List Byte) : State := storeBytes a bytes s

/-- The base state with `pc` moved and the word there. -/
def vectorAt (pc : Word) (word : Nat) : State := (setPc pc (drawAck State.reset)).withFetchWord 16 word

/-- The cycle completes with this outcome and the post-state passes. -/
def completes (s : State) (o : CycleOutcome) (good : State → Bool) : Bool :=
  match cycle s with
  | .ok (t, o') => decide (o' = o) && good t
  | .error _ => false

/-- The cycle faults and leaves the state as it was. -/
def stops (s : State) (f : Fault) : Bool :=
  match step s with
  | .fault g => decide (g = f)
  | _ => false

/-- The execute step gives a next state that passes. -/
def nextIs (r : Result) (good : State → Bool) : Bool :=
  match r with
  | .next t => good t
  | _ => false

/-! ## The cycle and unknown words -/

/-- T-UNK-1, T-UNK-2: skipped, with the tick. -/
theorem test_unknown : completes (vector 0x5001) (.unknownOpcode 0x5001) (fun t => t.pc = 0x202) = true ∧
    completes (setDelay 2 (vector 0)) (.unknownOpcode 0) (fun t => t.delayTimer = 1) = true := by decide

/-- T-FET-1, T-FET-2, T-FET-3. -/
theorem test_fetch_end : completes (vectorAt 0x0FFE 0x6001) .ok (fun t => reg 0 t = 1 && t.pc = 0x1000) = true ∧
    stops (setPc 0x0FFF State.reset) (.memoryAddressOutOfRange .fetch 0x0FFF) = true ∧
    stops (setPc 0x1000 State.reset) (.memoryAddressOutOfRange .fetch 0x1000) = true := by decide

/-- R202: with nothing loaded the first word is 0x0000. -/
theorem test_reset_first_cycle :
    completes State.reset (.unknownOpcode 0x0000) (fun t => t.pc = 0x202) = true := by decide

/-- R22: FONT[0..4] is the glyph 0; 0x50 reads zero after reset (R26). -/
theorem test_font : readByte 0 State.reset = 0xF0 ∧ readByte 1 State.reset = 0x90 ∧ readByte 0x4F State.reset = 0x80 ∧
    readByte 0x50 State.reset = 0 := by decide

/-- A write of the reset contents removes the cell; writes keep the addresses rising. -/
theorem test_memory_canonical :
    memWriteBytes [] 0x300 [1, 0, 2] = [(0x300, 1), (0x302, 2)] ∧
    memWrite [(0x300, 1), (0x302, 2)] 0x300 0 = [(0x302, 2)] ∧
    memWrite [(0x302, 2)] 0x301 7 = [(0x301, 7), (0x302, 2)] := by decide

/-! ## Control transfer -/

/-- T-CF-1, T-CF-8, T-CF-10. -/
theorem test_jumps : completes (vector 0x1ABC) .ok (fun t => t.pc = 0x0ABC) = true ∧
    completes (withReg (vector 0xBFFF) 0 0xFF) .ok (fun t => t.pc = 0x10FE) = true ∧
    completes (withReg (vector 0xB300) 0 1) .ok (fun t => t.pc = 0x0301) = true := by decide

/-- T-CF-4: the last free entry, and a return address past the end. -/
theorem test_call : completes { vectorAt 0x0FFE 0x2300 with sp := 15 } .ok
    (fun t => t.stack[15] = 0x1000 && t.sp = 16 && t.pc = 0x300) = true := by decide

/-- T-CF-5, T-CF-6. -/
theorem test_stack_faults : stops { vector 0x2300 with sp := 16 } .stackOverflow = true ∧
    stops (vector 0x00EE) .stackUnderflow = true := by decide

/-- T-CF-7: no + 2 on return; the entry keeps its value. -/
theorem test_ret : completes { vectorAt 0x020C 0x00EE with sp := 1, stack := State.reset.stack.set 0 0x206 } .ok
    (fun t => t.pc = 0x206 && t.sp = 0 && t.stack[0] = 0x206) = true := by decide

/-! ## Skips -/

/-- T-SK-1 to T-SK-4. -/
theorem test_byte_skips : completes (withReg (vector 0x3342) 3 0x42) .ok (fun t => t.pc = 0x204) = true ∧
    completes (withReg (vector 0x3342) 3 0x41) .ok (fun t => t.pc = 0x202) = true ∧
    completes (withReg (vector 0x4342) 3 0x42) .ok (fun t => t.pc = 0x202) = true ∧
    completes (withReg (vector 0x4342) 3 0x41) .ok (fun t => t.pc = 0x204) = true := by decide

/-- T-SK-5, T-SK-7, T-SK-8, and 5XY0 on unequal registers (R112). -/
theorem test_register_skips :
    completes (withReg (withReg (vector 0x5340) 3 0x7F) 4 0x7F) .ok (fun t => t.pc = 0x204) = true ∧
    completes (withReg (vector 0x5340) 3 0x7F) .ok (fun t => t.pc = 0x202) = true ∧
    completes (withReg (withReg (vector 0x9340) 3 1) 4 2) .ok (fun t => t.pc = 0x204) = true ∧
    completes (vector 0x9330) .ok (fun t => t.pc = 0x202) = true := by decide

/-- T-SK-9 to T-SK-12. -/
theorem test_key_skips :
    completes (writeKey 10 true (withReg (vector 0xE59E) 5 0x0A)) .ok (fun t => t.pc = 0x204) = true ∧
    completes (withReg (vector 0xE59E) 5 0x0A) .ok (fun t => t.pc = 0x202) = true ∧
    completes (writeKey 10 true (withReg (vector 0xE5A1) 5 0x0A)) .ok (fun t => t.pc = 0x202) = true ∧
    completes (withReg (vector 0xE5A1) 5 0x0A) .ok (fun t => t.pc = 0x204) = true := by decide

/-- T-SK-13, T-SK-14. -/
theorem test_key_index_faults : stops (withReg (vector 0xE59E) 5 0x10) (.keyIndexOutOfRange 0x10) = true ∧
    stops (withReg (vector 0xE5A1) 5 0xFF) (.keyIndexOutOfRange 0xFF) = true := by decide

/-! ## Load and ALU -/

/-- T-ALU-1, T-ALU-2, T-ALU-22. -/
theorem test_immediate : completes (vector 0x6AFF) .ok (fun t => reg 10 t = 0xFF) = true ∧
    completes (withReg (vector 0x7301) 3 0xFF) .ok (fun t => reg 3 t = 0 && reg vf t = 0) = true ∧
    completes (withReg (vector 0x7F01) 15 0xFF) .ok (fun t => reg vf t = 0) = true := by decide

/-- T-ALU-3 to T-ALU-6. -/
theorem test_logic : completes (withReg (vector 0x8010) 1 0x5A) .ok (fun t => reg 0 t = 0x5A) = true ∧
    completes (withReg (withReg (vector 0x8011) 0 0xF0) 1 0x0F) .ok (fun t => reg 0 t = 0xFF) = true ∧
    completes (withReg (withReg (vector 0x8012) 0 0xF0) 1 0x3C) .ok (fun t => reg 0 t = 0x30) = true ∧
    completes (withReg (withReg (vector 0x8013) 0 0xF0) 1 0x3C) .ok (fun t => reg 0 t = 0xCC) = true := by decide

/-- T-ALU-7, T-ALU-14, T-ALU-16: carry; VF as destination; VF as operand. -/
theorem test_add :
    completes (withReg (withReg (vector 0x8014) 0 0xFF) 1 1) .ok (fun t => reg 0 t = 0 && reg vf t = 1) = true ∧
    completes (withReg (withReg (vector 0x8F14) 15 0xFF) 1 3) .ok (fun t => reg vf t = 1) = true ∧
    completes (withReg (withReg (vector 0x80F4) 0 0xFF) 15 1) .ok (fun t => reg 0 t = 0 && reg vf t = 1) = true := by
  decide

/-- T-ALU-10, T-ALU-11, T-ALU-13. -/
theorem test_subtract :
    completes (withReg (withReg (vector 0x8015) 0 1) 1 2) .ok (fun t => reg 0 t = 0xFF && reg vf t = 0) = true ∧
    completes (withReg (withReg (vector 0x8015) 0 7) 1 7) .ok (fun t => reg 0 t = 0 && reg vf t = 1) = true ∧
    completes (withReg (withReg (vector 0x8017) 0 5) 1 2) .ok (fun t => reg 0 t = 0xFD && reg vf t = 0) = true := by
  decide

/-- T-ALU-17, T-ALU-19, T-ALU-21. -/
theorem test_shifts :
    completes (withReg (withReg (vector 0x8236) 2 5) 3 0xEE) .ok (fun t => reg 2 t = 2 && reg vf t = 1) = true ∧
    completes (withReg (withReg (vector 0x823E) 2 0x81) 3 0xEE) .ok (fun t => reg 2 t = 2 && reg vf t = 1) = true ∧
    completes (withReg (vector 0x8FFE) 15 0x7F) .ok (fun t => reg vf t = 0) = true := by decide

/-- T-ALU-24: whatever the draw, the mask 0x00 gives 0. -/
theorem test_random_mask : ∃ t, exec (.rnd 3 0x00) (withReg State.reset 3 0x55) = .next t ∧ reg 3 t = 0 :=
  ⟨_, rfl, by simp⟩

/-! ## Index and memory -/

/-- T-IDX-1, T-IDX-3, T-IDX-4, T-IDX-6, T-IDX-7. -/
theorem test_index : completes (vector 0xAFFF) .ok (fun t => t.index = 0x0FFF && t.pc = 0x202) = true ∧
    completes (withReg (withIndex (vector 0xF11E) 0x0FF0) 1 0x0F) .ok (fun t => t.index = 0x0FFF && reg vf t = 0) = true ∧
    completes (withReg (withIndex (vector 0xF11E) 0x0FFE) 1 3) .ok (fun t => t.index = 0x1001 && reg vf t = 1) = true ∧
    completes (withReg (withIndex (vector 0xF11E) 0xFFFF) 1 2) .ok (fun t => t.index = 1 && reg vf t = 1) = true ∧
    completes (withReg (withIndex (vector 0xFF1E) 0x0FFF) 15 1) .ok (fun t => t.index = 0x1000 && reg vf t = 1) = true := by
  decide

/-- T-IDX-10. -/
theorem test_glyph : completes (withReg (vector 0xF429) 4 0xFF) .ok (fun t => t.index = 0x04FB) = true := by decide

/-- T-IDX-13 to T-IDX-15. -/
theorem test_bcd :
    completes (withReg (withIndex (vector 0xF033) 0xFFD) 0 255) .ok
      (fun t => readByte 0xFFD t = 2 && readByte 0xFFE t = 5 && readByte 0xFFF t = 5 && t.index = 0xFFD) = true ∧
    stops (withIndex (vector 0xF033) 0xFFE) (.memoryAddressOutOfRange .write 0x1000) = true ∧
    stops (withIndex (vector 0xF033) 0x1FF) (.memoryAddressOutOfRange .protect 0x1FF) = true := by decide

/-- T-IDX-16, T-IDX-17, T-IDX-18, T-IDX-19. -/
theorem test_store :
    completes (withReg (withReg (withIndex (vector 0xF355) 0xFFC) 0 1) 3 4) .ok
      (fun t => readByte 0xFFC t = 1 && readByte 0xFFF t = 4 && t.index = 0x1000) = true ∧
    stops (withIndex (vector 0xF355) 0xFFE) (.memoryAddressOutOfRange .write 0x1000) = true ∧
    stops (withIndex (vector 0xF355) 0x1FE) (.memoryAddressOutOfRange .protect 0x1FE) = true ∧
    completes (withReg (withReg (withIndex (vector 0xF055) 0x300) 0 0xAA) 1 0xBB) .ok
      (fun t => readByte 0x300 t = 0xAA && readByte 0x301 t = 0) = true := by decide

/-- T-IDX-20, T-IDX-21, T-IDX-22. -/
theorem test_load :
    completes (withBytes (withIndex (vector 0xF065) 0xFFF) 0xFFF [0xAB]) .ok
      (fun t => reg 0 t = 0xAB && t.index = 0x1000) = true ∧
    stops (withIndex (vector 0xF165) 0xFFF) (.memoryAddressOutOfRange .read 0x1000) = true ∧
    completes (vector 0xF465) .ok (fun t => reg 0 t = 0xF0 && reg 1 t = 0x90 && reg 4 t = 0xF0 && reg 5 t = 0) = true := by
  decide

/-! ## Display -/

/-- T-DRW-1, T-DRW-2. -/
theorem test_cls :
    completes { vector 0x00E0 with display := flipPixel blankDisplay 3 3 } .ok
      (fun t => !pixel 3 3 t && t.drawFlag) = true ∧
    completes (vector 0x00E0) .ok (fun t => t.drawFlag) = true := by decide

/-- T-DRW-3: xor and collision. -/
theorem test_draw_collision :
    completes { withBytes (withIndex (vector 0xD011) 0x300) 0x300 [0xC0] with display := flipPixel blankDisplay 1 0 } .ok
      (fun t => pixel 0 0 t && !pixel 1 0 t && reg vf t = 1 && t.drawFlag) = true := by decide

/-- T-DRW-9, T-DRW-10: wrap of columns and of rows. -/
theorem test_draw_wrap :
    completes (withReg (withBytes (withIndex (vector 0xD011) 0x300) 0x300 [0xFF]) 0 60) .ok
      (fun t => pixel 60 0 t && pixel 63 0 t && pixel 0 0 t && pixel 3 0 t && !pixel 4 0 t && reg vf t = 0) = true ∧
    completes (withReg (withReg (withBytes (withIndex (vector 0xD012) 0x300) 0x300 [0x80, 0x80]) 0 5) 1 31) .ok
      (fun t => pixel 5 31 t && pixel 5 0 t) = true := by decide

/-- T-DRW-5 to T-DRW-8. -/
theorem test_draw_edges :
    completes (withReg (withIndex (vector 0xD000) 0x2000) 15 1) .ok (fun t => reg vf t = 0 && t.drawFlag) = true ∧
    completes (withReg (withBytes (withIndex (vector 0xDFF1) 0x300) 0x300 [0x80]) 15 3) .ok
      (fun t => pixel 3 3 t && reg vf t = 0) = true ∧
    completes (withBytes (withBytes (withIndex (vector 0xD004) 0xFFC) 0xFFC [0x80]) 0xFFF [0x01]) .ok
      (fun t => pixel 0 0 t && pixel 7 3 t) = true ∧
    stops (withIndex (vector 0xD005) 0xFFC) (.memoryAddressOutOfRange .read 0x1000) = true := by decide

/-! ## Timers, keys and the host -/

/-- T-TMR-1, T-TMR-2, T-TMR-4. -/
theorem test_timers :
    completes (setDelay 2 (vector 0xF107)) .ok (fun t => reg 1 t = 2 && t.delayTimer = 1) = true ∧
    completes (withReg (vector 0xF015) 0 1) .ok (fun t => t.delayTimer = 0) = true ∧
    completes (withReg (vector 0xF218) 2 0x10) .ok (fun t => t.soundTimer = 0x0F && soundActive t) = true := by decide

/-- T-TMR-6: no tick in a faulting cycle. -/
theorem test_no_tick_on_fault :
    completes (setDelay 0xFF (vector 0x00EE)) (.fault .stackUnderflow) (fun t => t.delayTimer = 0xFF) = true := by decide

/-- T-KEY-1, T-KEY-3, T-KEY-4. -/
theorem test_key_wait :
    completes (setDelay 5 (setSound 1 (vector 0xF20A))) .waitKey
      (fun t => t.pc = 0x200 && t.delayTimer = 4 && t.soundTimer = 0) = true ∧
    completes (writeKey 12 true (writeKey 9 true (writeKey 3 true (vector 0xF20A)))) .ok
      (fun t => reg 2 t = 3 && t.pc = 0x202) = true ∧
    completes (writeKey 0 true (withReg (vector 0xFF0A) 15 7)) .ok (fun t => reg vf t = 0) = true := by decide

/-- R170, R175, R176: the codes. -/
theorem test_codes : outcomeCode (.unknownOpcode 0x5001) = 2 ∧ outcomeCode (.fault (.keyIndexOutOfRange 0x10)) = 6 ∧
    loadCode .romTooLarge = 7 ∧ loadCode .romReadIncomplete = 8 := by decide

/-- R203, R206: the program of P6 is loaded and its first word fetched. -/
theorem test_launch : (match launch 0 [0x00, 0xEE] with
    | some s => decide (readByte 0x201 s = 0xEE) && stops s .stackUnderflow
    | none => false) = true := by decide

/-- R19: bit y * 64 + x of the output; (62, 31) is bit 2046 (P3). -/
theorem test_displayBit : displayBit 2046 { State.reset with display := flipPixel blankDisplay 62 31 } = true ∧
    displayBit 2047 { State.reset with display := flipPixel blankDisplay 62 31 } = false := by decide

/-! ## Witnesses: states and operands that meet the hypotheses of each statement -/

/-- The masks of WordsDecodeTo: each word below is one of the row's, by `op & mask = match` alone; the same hypothesis
stands in OpcodeMapRowsDecideTheDecoder. -/
theorem witness_WordsDecodeTo : ([0x00E0, 0x00EE, 0x1ABC, 0x220A, 0x3342, 0x4342, 0x5340, 0x6AFF, 0x7301, 0x8010, 0x8011,
      0x8012, 0x8013, 0x8014, 0x8015, 0x8236, 0x8017] : List Word).map (fun op => (opcodeMap.filter fun row => row.accepts op).map
      OpcodeRow.number) = [[1], [2], [3], [4], [5], [6], [7], [8], [9], [10], [11], [12], [13], [14], [15], [16], [17]] ∧
    ([0x823E, 0x9340, 0xAFFF, 0xB300, 0xC30F, 0xD012, 0xE59E, 0xE5A1, 0xF107, 0xF20A, 0xF015, 0xF218, 0xF11E, 0xF429, 0xF033,
      0xF355, 0xF465] : List Word).map (fun op => (opcodeMap.filter fun row => row.accepts op).map OpcodeRow.number) =
      [[18], [19], [20], [21], [22], [23], [24], [25], [26], [27], [28], [29], [30], [31], [32], [33], [34]] := by decide

theorem witness_FieldsAreTheSlicesOfTheWord : (3 < 4 ∧ 7 < 8 ∧ 11 < 12) ∧ (fieldT 0xABCD).toNat = 0xA ∧
    (fieldX 0xABCD).val = 0xB ∧ (fieldY 0xABCD).val = 0xC ∧ (fieldN 0xABCD).toNat = 0xD ∧
    (fieldNN 0xABCD).toNat = 0xCD ∧ (fieldNNN 0xABCD).toNat = 0xBCD := by decide

theorem witness_EncodeOfDecodeIsTheWord : decodeWord 0x8236 = .ok (.shrReg 2 3) := by decide

theorem witness_OpcodeMapRowsDecideTheDecoder : ⟨16, 0xF00F, 0x8006⟩ ∈ opcodeMap ∧ (0x8236 : Word) &&& 0xF00F = 0x8006 := by
  decide

theorem witness_UnknownWordsAreExactlyThese : decodeWord 0x00E1 = .error (.unknownOpcode 0x00E1) ∧
    decodeWord 0x500F = .error (.unknownOpcode 0x500F) ∧ decodeWord 0x9001 = .error (.unknownOpcode 0x9001) ∧
    decodeWord 0x800F = .error (.unknownOpcode 0x800F) ∧ decodeWord 0xE5A0 = .error (.unknownOpcode 0xE5A0) ∧
    decodeWord 0xF0FF = .error (.unknownOpcode 0xF0FF) := by decide

/-- The last fetchable word, a wait, and a fault. -/
theorem witness_StepRunsTheDecodedInstruction :
    ((vectorAt 0x0FFE 0x6001).pc.toNat ≤ 0x0FFE ∧
      decode [readByte 0x0FFE (vectorAt 0x0FFE 0x6001), readByte 0x0FFF (vectorAt 0x0FFE 0x6001)] = .ok (.ldByte 0 1, []) ∧
      nextIs (exec (.ldByte 0 1) (vectorAt 0x0FFE 0x6001)) (fun _ => true) = true) ∧
    (decode [readByte 0x200 (vector 0xF20A), readByte 0x201 (vector 0xF20A)] = .ok (.ldRegKey 2, []) ∧
      nextIs (exec (.ldRegKey 2) (vector 0xF20A)) (fun _ => true) = true ∧ ∀ k, keyDown k (vector 0xF20A) = false) ∧
    (decode [readByte 0x200 (vector 0x00EE), readByte 0x201 (vector 0x00EE)] = .ok (.ret, []) ∧
      exec .ret (vector 0x00EE) = .fault .stackUnderflow) := by
  refine ⟨by decide, by decide, by decide, rfl⟩

theorem witness_UnknownOpcodeIsSkippedAndReported :
    (vectorAt 0x0FFE 0x5001).pc.toNat ≤ 0x0FFE ∧ decodeWord 0x5001 = .error (.unknownOpcode 0x5001) ∧
    (0x5001 : Word).toNat = (readByte 0x0FFE (vectorAt 0x0FFE 0x5001)).toNat * 256 +
      (readByte 0x0FFF (vectorAt 0x0FFE 0x5001)).toNat := by decide

theorem witness_FetchPastTheEndFaults : (setPc 0x0FFF State.reset).pc.toNat > 0x0FFE := by decide

/-- FX15, FX18, an unknown word, an ordinary instruction. -/
theorem witness_TimersTickOncePerCompletedCycle :
    (fetch (vector 0xF015) = .ok 0xF015 ∧ nextIs (step (vector 0xF015)) (fun _ => true) = true) ∧
    (fetch (vector 0xF218) = .ok 0xF218 ∧ nextIs (step (vector 0xF218)) (fun _ => true) = true) ∧
    (fetch (vector 0x5001) = .ok 0x5001 ∧ nextIs (step (vector 0x5001)) (fun _ => true) = true) ∧
    (fetch (vector 0x6AFF) = .ok 0x6AFF ∧ nextIs (step (vector 0x6AFF)) (fun _ => true) = true) := by decide

theorem witness_AFaultRepeatsUntilReset : step (vector 0x00EE) = .fault .stackUnderflow := rfl

theorem witness_CallPushesTheNextAddress : State.reset.sp.val < 16 ∧ { State.reset with sp := 15 }.sp.val < 16 ∧
    { State.reset with sp := 16 }.sp.val = 16 := by decide

theorem witness_ReturnPopsTheAddress : 0 < { State.reset with sp := 1 }.sp.val ∧ 0 < { State.reset with sp := 16 }.sp.val ∧
    State.reset.sp.val = 0 := by decide

/-- The call of P2, and the later state a return runs in. -/
theorem witness_CallThenReturnComesBack : nextIs (exec (.call 0x20A) State.reset) (fun t =>
    (setPc 0x20C t).sp.val = State.reset.sp.val + 1 && (setPc 0x20C t).stack[0] = t.stack[0]) = true := by decide

theorem witness_KeySkipsTestOneKey : (reg 5 (withReg State.reset 5 15)).toNat ≤ 15 ∧
    (reg 5 (withReg State.reset 5 16)).toNat > 15 := by decide

theorem witness_ArithmeticIsExactOverTheIntegers : (0 : Reg) ≠ vf ∧
    nextIs (exec (.addReg 0 1) (withReg State.reset 1 2)) (fun _ => true) = true ∧
    nextIs (exec (.subReg 0 1) (withReg State.reset 1 2)) (fun _ => true) = true ∧
    nextIs (exec (.subnReg 0 1) (withReg State.reset 1 2)) (fun _ => true) = true := by decide

theorem witness_VfIsWrittenOnlyAsFlagOrDestination :
    nextIs (exec (.drw 0 1 2) State.reset) (fun _ => true) = true ∧
    nextIs (exec (.loadRegs 14) State.reset) (fun _ => true) = true ∧ (14 : Reg) ≠ vf ∧
    nextIs (exec .cls State.reset) (fun _ => true) = true := by decide

/-- The first and the last place, and the two faults next to them. -/
theorem witness_BcdStoresThreeDigits :
    (0x200 ≤ effAddr 0 (withIndex State.reset 0x200) ∧ effAddr 2 (withIndex State.reset 0x200) ≤ 0xFFF) ∧
    (0x200 ≤ effAddr 0 (withIndex State.reset 0xFFD) ∧ effAddr 2 (withIndex State.reset 0xFFD) ≤ 0xFFF) ∧
    effAddr 0 (withIndex State.reset 0x1FF) < 0x200 ∧
    (0x200 ≤ effAddr 0 (withIndex State.reset 0xFFE) ∧ effAddr 2 (withIndex State.reset 0xFFE) > 0xFFF) := by decide

theorem witness_StoreRegistersWritesTheRange :
    (0x200 ≤ effAddr 0 (withIndex State.reset 0x200) ∧ effAddr 15 (withIndex State.reset 0x200) ≤ 0xFFF) ∧
    (0x200 ≤ effAddr 0 (withIndex State.reset 0xFF0) ∧ effAddr 15 (withIndex State.reset 0xFF0) ≤ 0xFFF) ∧
    effAddr 0 (withIndex State.reset 0x1FF) < 0x200 ∧
    (0x200 ≤ effAddr 0 (withIndex State.reset 0xFF1) ∧ effAddr 15 (withIndex State.reset 0xFF1) > 0xFFF) := by decide

theorem witness_LoadRegistersReadsTheRange :
    effAddr 15 (withIndex State.reset 0xFF0) ≤ 0xFFF ∧ effAddr 15 (withIndex State.reset 0xFF1) > 0xFFF := by decide

/-- S5: `I` back at 0x300, the memory of the store, other registers. -/
theorem witness_StoreThenLoadGivesTheRegistersBack : ∃ t, exec (.storeRegs 3) (withIndex State.reset 0x300) = .next t ∧
    (withIndex t 0x300).index = (withIndex State.reset 0x300).index ∧ ∀ a, readByte a (withIndex t 0x300) = readByte a t :=
  ⟨_, rfl, rfl, fun _ => rfl⟩

theorem witness_StoredBytesAreTheNextInstruction : ∃ t,
    exec (.storeRegs 1) (withReg (withReg (withIndex State.reset 0x300) 0 0x60) 1 0x05) = .next t ∧
    (1 : Reg).val = (0 : Reg).val + 1 ∧ (setPc 0x300 t).memory = t.memory ∧
    (setPc 0x300 t).pc.toNat = effAddr 0 (withReg (withReg (withIndex State.reset 0x300) 0 0x60) 1 0x05) :=
  ⟨_, rfl, by decide, rfl, by decide⟩

/-- N = 0 with `I` out of range, a sprite ending at 0xFFF, one past it; a hit and no hit. -/
theorem witness_DrawSpriteXorsItsPixels : ((0 : Nibble).toNat = 0 ∧ effAddr 0 (withIndex State.reset 0x2000) > 0xFFF) ∧
    effAddr ((4 : Nibble).toNat - 1) (withIndex State.reset 0xFFC) ≤ 0xFFF ∧
    ((5 : Nibble).toNat > 0 ∧ effAddr ((5 : Nibble).toNat - 1) (withIndex State.reset 0xFFC) > 0xFFF) ∧
    ((readByte (effAddr 0 State.reset) State.reset).getLsbD (7 - 0) = true ∧
      pixel 0 0 { State.reset with display := flipPixel blankDisplay 0 0 } = true ∧ pixel 0 0 State.reset = false) := by
  decide

theorem witness_DrawingTwiceRestoresTheDisplay : (0 : Reg) ≠ vf ∧ (1 : Reg) ≠ vf ∧
    nextIs (exec (.drw 0 1 2) State.reset) (fun _ => true) = true := by decide

/-- The program of this witness: the word at 0x200, then 6AFF and FX07 on V[1]; V[0] = 9. -/
def timerProgram (word : Nat) : State := withReg (withBytes (vector word) 0x202 [0x6A, 0xFF, 0xF1, 0x07]) 0 9

/-- FX18 and, apart, FX15 at 0x200, then 6XNN (k = 1), then FX07; and k = 0 right after the first cycle. -/
theorem witness_LoadedTimersCountDownCycleByCycle :
    (∃ a u, fetch (timerProgram 0xF018) = .ok 0xF018 ∧ decodeWord 0xF018 = .ok (.ldSoundReg 0) ∧
      step (timerProgram 0xF018) = .next a ∧ CyclesWithout (fun i => ∃ z, i = .ldSoundReg z) 0 a a ∧
      CyclesWithout (fun i => ∃ z, i = .ldSoundReg z) 1 a u) ∧
    ∃ a u, fetch (timerProgram 0xF015) = .ok 0xF015 ∧ decodeWord 0xF015 = .ok (.ldDelayReg 0) ∧
      step (timerProgram 0xF015) = .next a ∧ CyclesWithout (fun i => ∃ z, i = .ldDelayReg z) 1 a u ∧
      fetch u = .ok 0xF107 ∧ decodeWord 0xF107 = .ok (.ldRegDelay 1) := by
  refine ⟨⟨_, _, by decide, by decide, rfl, rfl, ⟨_, rfl, rfl, ?_⟩⟩,
    ⟨_, _, by decide, by decide, rfl, ⟨_, rfl, rfl, ?_⟩, by decide, by decide⟩⟩
  all_goals
    intro op i h hi
    have h' : (Except.ok 0x6AFF : Except Fault Word) = .ok op := h
    cases h'
    cases hi
    simp

/-- Key 15 alone; keys 0 and 9; no key. -/
theorem witness_KeyWaitTakesTheLowestPressedKey :
    (keyDown 15 (writeKey 15 true State.reset) = true ∧ ∀ j < (15 : Key), keyDown j (writeKey 15 true State.reset) = false) ∧
    (keyDown 0 (writeKey 0 true (writeKey 9 true State.reset)) = true ∧
      ∀ j < (0 : Key), keyDown j (writeKey 0 true (writeKey 9 true State.reset)) = false) ∧
    ((∀ k, keyDown k (vector 0xF20A) = false) ∧ fetch (vector 0xF20A) = .ok (encode (.ldRegKey 2))) := by decide

/-- The instruction 6XNN completes and is none of those the whole-machine frames except. -/
theorem witness_wholeMachineFrames : ∃ t, exec (.ldByte 3 0x42) State.reset = .next t ∧
    (∀ nnn, Instr.ldByte 3 0x42 ≠ .call nnn) ∧ Instr.ldByte 3 0x42 ≠ .ret ∧ Instr.ldByte 3 0x42 ≠ .cls ∧
    (∀ x y n, Instr.ldByte 3 0x42 ≠ .drw x y n) ∧ (∀ x, Instr.ldByte 3 0x42 ≠ .ldDelayReg x) ∧
    (∀ x, Instr.ldByte 3 0x42 ≠ .ldSoundReg x) ∧ (∀ x nn, Instr.ldByte 3 0x42 ≠ .rnd x nn) ∧
    (∀ nnn, Instr.ldByte 3 0x42 ≠ .ldIndex nnn) ∧ (∀ x, Instr.ldByte 3 0x42 ≠ .addIndex x) ∧
    (∀ x, Instr.ldByte 3 0x42 ≠ .ldGlyph x) ∧ (∀ x, Instr.ldByte 3 0x42 ≠ .ldBcd x) ∧
    (∀ x, Instr.ldByte 3 0x42 ≠ .storeRegs x) ∧ (∀ x, Instr.ldByte 3 0x42 ≠ .loadRegs x) := by
  refine ⟨_, rfl, ?_⟩
  simp

/-- OnlyCallAndReturnTouchTheStack, first clause: 00EE is no call. -/
theorem witness_OnlyCallAndReturnTouchTheStack : nextIs (exec .ret { State.reset with sp := 1 }) (fun _ => true) = true := by
  decide

/-- OnlyDisplayInstructionsTouchTheDisplay: 00E0 and DXYN complete, and a cycle completes with draw_flag on. -/
theorem witness_OnlyDisplayInstructionsTouchTheDisplay : nextIs (exec .cls State.reset) (fun _ => true) = true ∧
    nextIs (exec (.drw 0 1 15) State.reset) (fun _ => true) = true ∧
    nextIs (step State.reset) (fun _ => State.reset.drawFlag) = true := by decide

/-- A store at 0x200, next to the highest protected byte. -/
theorem witness_NoCycleWritesBelow0200 :
    nextIs (step (withIndex (vector 0xF055) 0x200)) (fun _ => true) = true ∧ 0x1FF < 0x200 := by decide

/-- A state with a program and a call in progress meets the invariant, and its cycle completes. -/
theorem witness_InvariantIsKeptByEveryCycle :
    StateInv { vector 0x2300 with sp := 1, stack := State.reset.stack.set 0 0x1000 } ∧
    nextIs (step { vector 0x2300 with sp := 1, stack := State.reset.stack.set 0 0x1000 }) (fun _ => true) = true :=
  ⟨⟨by decide, by decide, by decide, by decide⟩, by decide⟩

/-- Each host move answers on such a state; a faulting cycle and a refused load too. -/
theorem witness_InvariantIsKeptByEveryHostMove (b : Byte) : StateInv (vector 0x00EE) ∧
    hostMoveAfterReset (.reset 7) (vector 0x00EE) = .ok (State.resetWith 7, .silent) ∧
    hostMoveAfterReset .step (vector 0x00EE) = .ok (vector 0x00EE, .cycled (.fault .stackUnderflow)) ∧
    hostMoveAfterReset (.load (List.replicate 3585 b)) (vector 0x00EE) = .ok (vector 0x00EE, .loaded .romTooLarge) ∧
    hostMoveAfterReset (.writeKey 7 true) (vector 0x00EE) = .ok (writeKey 7 true (vector 0x00EE), .silent) ∧
    hostMoveAfterReset .drawAck (vector 0x00EE) = .ok (drawAck (vector 0x00EE), .silent) := by
  have h : programWellFormed (List.replicate 3585 b) = false := (test_programWellFormed b).1
  refine ⟨⟨by decide, by decide, by decide, by decide⟩, rfl, by decide, ?_, rfl, rfl⟩
  simp only [hostMoveAfterReset, load, h, Bool.false_eq_true, if_false]

theorem witness_StatesAreDeterminedByTheirPlaces : (vector 0x1200).memory.wf ∧
    ∀ p, sameAt p (vector 0x1200) (vector 0x1200) := ⟨by decide, fun p => sameAt_refl p _⟩

/-- T-CF-2. -/
theorem witness_TerminalStateOnlyCountsDown : Terminal (vector 0x1200) := ⟨by decide, by decide⟩

theorem witness_LoaderCopiesTheProgram (b : Byte) : (List.replicate 3584 b).length ≤ 3584 ∧
    3583 < (List.replicate 3584 b).length ∧ (List.replicate 3585 b).length > 3584 := by
  simp only [List.length_replicate]; decide

theorem witness_ResetWritesEveryElement : 0x4F < 0x50 ∧ 0x50 ≤ 0xFFF ∧ readByte 0x4F State.reset = 0x80 ∧
    readByte 0xFFF State.reset = 0 := by decide

theorem witness_LaunchedProgramStartsWithItsFirstWord (b : Byte) : ([] : List Byte).length ≤ 3582 ∧
    (List.replicate 3582 b).length ≤ 3582 := by simp only [List.length_replicate]; decide

theorem witness_OnlyResetWorksBeforeTheFirstReset : ∀ e, HostMove.load [0x00, 0xEE] ≠ .reset e := by simp

/-- The corners of the output, and the premises on 00E0 and on an instruction that is neither 00E0 nor DXYN. -/
theorem witness_DisplayOutputIsRowMajor :
    ((0 : Fin 2048).val = (0 : Fin 32).val * 64 + (0 : Fin 64).val ∧ (2047 : Fin 2048).val = (31 : Fin 32).val * 64 + (63 : Fin 64).val) ∧
    nextIs (exec .cls State.reset) (fun _ => true) = true ∧ ∃ t, exec (.ldByte 3 0x42) State.reset = .next t ∧
    Instr.ldByte 3 0x42 ≠ .cls ∧ ∀ x y n, Instr.ldByte 3 0x42 ≠ .drw x y n :=
  ⟨by decide, by decide, _, rfl, by simp, by simp⟩

/-- 6XNN reads none of the spaces. -/
theorem witness_SpacesAreReadOnlyByTheirInstructions : (∀ x, Instr.ldByte 3 0x42 ≠ .skp x) ∧
    (∀ x, Instr.ldByte 3 0x42 ≠ .sknp x) ∧ (∀ x, Instr.ldByte 3 0x42 ≠ .ldRegKey x) ∧
    (∀ x, Instr.ldByte 3 0x42 ≠ .ldRegDelay x) ∧ (∀ x y n, Instr.ldByte 3 0x42 ≠ .drw x y n) ∧
    (∀ x nn, Instr.ldByte 3 0x42 ≠ .rnd x nn) ∧ Instr.ldByte 3 0x42 ≠ .ret ∧
    (∀ nnn, Instr.ldByte 3 0x42 ≠ .call nnn) := by simp

/-- A reset, a load and a step in a row answer. -/
theorem test_hostMoves : (match hostMoves [.reset 0, .load [0x6A, 0xFF], .step, .drawAck] none with
    | .ok (some s) => decide (reg 10 s = 0xFF) && !s.drawFlag
    | _ => false) = true ∧ hostMoves [.step, .reset 0] none = .error .beforeFirstReset :=
  ⟨by decide, rfl⟩

/-- R184, R164: sound_active after an FX18 cycle with V[X] = 1 is 0, with V[X] = 2 it is 1. -/
theorem test_soundActive : completes (withReg (vector 0xF218) 2 1) .ok (fun t => !soundActive t) = true ∧
    completes (withReg (vector 0xF218) 2 2) .ok (fun t => soundActive t) = true := by decide

end Sys2Proof.Machine
end

section
/-! PROOFS. The machine state: what each instruction may write (10_state.md R11 to R23, 20_memory.md R42), as one frame of
the execute step from which the statements about single spaces follow; canonical memories and equal states; the reset
values; the host before the first reset. -/

namespace Sys2Proof.Machine

/-! ## When the meanings with a branch complete -/

theorem execRet_next {s t : State} : execRet s = .next t ↔ ∃ w u, pop s = some (w, u) ∧ t = setPc w u := by
  unfold execRet
  cases h : pop s <;> simp [raise, eq_comm, Prod.ext_iff]

theorem execCall_next {nnn : Addr} {s t : State} :
    execCall nnn s = .next t ↔ ∃ u, push (s.pc + 2) s = some u ∧ t = setPc (zeroExtend nnn) u := by
  unfold execCall
  cases h : push (s.pc + 2) s <;> simp [raise, eq_comm]

theorem skipOnKey_next {x : Reg} {wanted : Bool} {s t : State} :
    skipOnKey x wanted s = .next t ↔
      ∃ h : (reg x s).toNat < 16, t = skipIf (keyDown ⟨(reg x s).toNat, h⟩ s == wanted) s := by
  unfold skipOnKey
  split_ifs with h
  · simp [h, eq_comm]
  · simp [h, raise]

theorem execLdRegKey_next {x : Reg} {s t : State} :
    execLdRegKey x s = .next t ↔
      (∃ k, lowestKey s = some k ∧ t = advance (writeReg x (BitVec.ofNat 8 k.val) s)) ∨
      (lowestKey s = none ∧ t = s) := by
  unfold execLdRegKey
  cases h : lowestKey s <;> simp [eq_comm]

/-! ## Frames of the shapes that several instructions share -/

theorem changesOnly_writeReg_advance {w : Place → Prop} (r : Reg) (b : Byte) (s : State) (hr : w (.reg r)) (hpc : w .pc) :
    ChangesOnly w s (advance (writeReg r b s)) :=
  changesOnly_trans (changesOnly_writeReg r b s hr) (changesOnly_advance _ hpc)

theorem changesOnly_writeFlag_advance {w : Place → Prop} (f : Bool) (s : State) (hvf : w (.reg vf)) (hpc : w .pc) :
    ChangesOnly w s (advance (writeFlag f s)) := changesOnly_writeReg_advance vf (flagByte f) s hvf hpc

theorem changesOnly_writeWithFlag {w : Place → Prop} (r : Reg) (b : Byte) (f : Bool) (s : State) (hr : w (.reg r))
    (hvf : w (.reg vf)) (hpc : w .pc) : ChangesOnly w s (writeWithFlag r b f s) :=
  changesOnly_trans (changesOnly_writeReg r b s hr) (changesOnly_writeFlag_advance f _ hvf hpc)

/-- A checked store stays inside the program region (20_memory.md R48). -/
theorem changesOnly_checkedStore {w : Place → Prop} {a n : Nat} {bytes : List Byte} {s : State}
    (checked : checkWrite a (a + n) = none) (fits : bytes.length = n + 1)
    (region : ∀ c, 0x200 ≤ c → c ≤ 0xFFF → w (.byte c)) : ChangesOnly w s (storeBytes a bytes s) := by
  obtain ⟨lo, hi⟩ := checkWrite_none.1 checked
  exact changesOnly_storeBytes a bytes s fun k hk => region _ (by omega) (by omega)

/-! ## What an instruction may write -/

/-- The registers an instruction may write: its destination, VF as the flag, or the range of FX65 (R10, R11). -/
def writesReg (i : Instr) (r : Reg) : Prop :=
  match i with
  | .ldByte x _ | .addByte x _ | .ldReg x _ | .orReg x _ | .andReg x _ | .xorReg x _ | .rnd x _
  | .ldRegDelay x | .ldRegKey x => r = x
  | .addReg x _ | .subReg x _ | .shrReg x _ | .subnReg x _ | .shlReg x _ => r = x ∨ r = vf
  | .addIndex _ | .drw _ _ _ => r = vf
  | .loadRegs x => r.val ≤ x.val
  | _ => False

/-- An instruction that draws: 00E0 or DXYN (45_display.md R154). -/
def Draws (i : Instr) : Prop := i = .cls ∨ ∃ x y n, i = .drw x y n

/-- The places the execute step of an instruction may write, space by space (20_memory.md R42). -/
def mayWrite (i : Instr) : Place → Prop
  | .reg r => writesReg i r
  | .index => (∃ nnn, i = .ldIndex nnn) ∨ (∃ x, i = .addIndex x) ∨ (∃ x, i = .ldGlyph x) ∨ (∃ x, i = .storeRegs x) ∨
      ∃ x, i = .loadRegs x
  | .pc => True
  | .sp => i = .ret ∨ ∃ nnn, i = .call nnn
  | .stack _ => ∃ nnn, i = .call nnn
  | .delayTimer => ∃ x, i = .ldDelayReg x
  | .soundTimer => ∃ x, i = .ldSoundReg x
  | .byte a => (0x200 ≤ a ∧ a ≤ 0xFFF) ∧ ((∃ x, i = .ldBcd x) ∨ ∃ x, i = .storeRegs x)
  | .key _ => False
  | .pixel _ _ => Draws i
  | .drawFlag => Draws i
  | .rng => ∃ x nn, i = .rnd x nn

/-- The frame of the execute step, for every instruction that completes: nothing outside `mayWrite` changes. -/
theorem exec_changesOnly {i : Instr} {s t : State} (h : exec i s = .next t) : ChangesOnly (mayWrite i) s t := by
  cases i with
  | cls =>
    cases h
    exact changesOnly_trans (changesOnly_showDisplay _ s (.inl rfl) fun _ _ hp => absurd (.inl rfl) hp)
      (changesOnly_advance _ trivial)
  | ret =>
    obtain ⟨w, u, hpop, rfl⟩ := execRet_next.1 h
    exact changesOnly_trans (changesOnly_pop hpop (.inl rfl)) (changesOnly_setPc w u trivial)
  | call nnn =>
    obtain ⟨u, hpush, rfl⟩ := execCall_next.1 h
    exact changesOnly_trans (changesOnly_push hpush (.inr ⟨nnn, rfl⟩) fun _ _ => ⟨nnn, rfl⟩)
      (changesOnly_setPc _ u trivial)
  | jp _ | jpV0 _ =>
    cases h
    exact changesOnly_setPc _ s trivial
  | seByte _ _ | sneByte _ _ | seReg _ _ | sneReg _ _ =>
    cases h
    exact changesOnly_skipIf _ s trivial
  | skp _ | sknp _ =>
    obtain ⟨_, rfl⟩ := skipOnKey_next.1 h
    exact changesOnly_skipIf _ s trivial
  | ldByte _ _ | addByte _ _ | ldReg _ _ | orReg _ _ | andReg _ _ | xorReg _ _ | ldRegDelay _ =>
    cases h
    exact changesOnly_writeReg_advance _ _ s rfl trivial
  | rnd x nn =>
    cases h
    exact changesOnly_trans (changesOnly_drawRandom s ⟨x, nn, rfl⟩) (changesOnly_writeReg_advance x _ _ rfl trivial)
  | ldRegKey x =>
    obtain ⟨k, -, rfl⟩ | ⟨-, rfl⟩ := execLdRegKey_next.1 h
    · exact changesOnly_writeReg_advance x _ s rfl trivial
    · exact changesOnly_refl _ _
  | addReg _ _ | subReg _ _ | shrReg _ _ | subnReg _ _ | shlReg _ _ =>
    cases h
    exact changesOnly_writeWithFlag _ _ _ s (.inl rfl) (.inr rfl) trivial
  | ldIndex nnn =>
    cases h
    exact changesOnly_trans (changesOnly_setIndex _ s (.inl ⟨nnn, rfl⟩)) (changesOnly_advance _ trivial)
  | ldGlyph x =>
    cases h
    exact changesOnly_trans (changesOnly_setIndex _ s (.inr (.inr (.inl ⟨x, rfl⟩)))) (changesOnly_advance _ trivial)
  | addIndex x =>
    cases h
    exact changesOnly_trans (changesOnly_setIndex _ s (.inr (.inl ⟨x, rfl⟩)))
      (changesOnly_writeFlag_advance _ _ rfl trivial)
  | drw x y n =>
    obtain ⟨-, rfl⟩ := unlessFault_next.1 h
    have shown : mayWrite (.drw x y n) .drawFlag := .inr ⟨x, y, n, rfl⟩
    exact changesOnly_trans (changesOnly_showDisplay _ s shown fun _ _ hp => absurd shown hp)
      (changesOnly_writeFlag_advance _ _ rfl trivial)
  | ldDelayReg x =>
    cases h
    exact changesOnly_trans (changesOnly_setDelay _ s ⟨x, rfl⟩) (changesOnly_advance _ trivial)
  | ldSoundReg x =>
    cases h
    exact changesOnly_trans (changesOnly_setSound _ s ⟨x, rfl⟩) (changesOnly_advance _ trivial)
  | ldBcd x =>
    obtain ⟨checked, rfl⟩ := unlessFault_next.1 h
    exact changesOnly_trans
      (changesOnly_checkedStore checked (bcdDigits_length _) fun _ lo hi => ⟨⟨lo, hi⟩, .inl ⟨x, rfl⟩⟩)
      (changesOnly_advance _ trivial)
  | storeRegs x =>
    obtain ⟨checked, rfl⟩ := unlessFault_next.1 h
    have stored := changesOnly_checkedStore (w := mayWrite (.storeRegs x)) (s := s) checked (regsUpTo_length x s)
      fun _ lo hi => ⟨⟨lo, hi⟩, .inr ⟨x, rfl⟩⟩
    exact changesOnly_trans stored (changesOnly_trans (changesOnly_setIndex _ _ (.inr (.inr (.inr (.inl ⟨x, rfl⟩)))))
      (changesOnly_advance _ trivial))
  | loadRegs x =>
    obtain ⟨-, rfl⟩ := unlessFault_next.1 h
    exact changesOnly_trans (changesOnly_loadUpTo x s fun _ hr => hr)
      (changesOnly_trans (changesOnly_setIndex _ _ (.inr (.inr (.inr (.inr ⟨x, rfl⟩))))) (changesOnly_advance _ trivial))

/-! ## VF -/

theorem flagByte_zero_or_one (f : Bool) : flagByte f = 0 ∨ flagByte f = 1 := by cases f <;> simp [flagByte]

/-- VF right after a flag write and the advance of `pc`, the end of all seven flag-writing instructions (R85). -/
theorem vf_writeFlag_advance (f : Bool) (s : State) :
    reg vf (advance (writeFlag f s)) = 0 ∨ reg vf (advance (writeFlag f s)) = 1 := by
  rw [reg_advance, reg_writeFlag, if_pos rfl]
  exact flagByte_zero_or_one f

/-- Settles O25: the flag writers end in the flag write; for the others the frame of the execute step gives VF. -/
theorem vfIsWrittenOnlyAsFlagOrDestination : Obligations.VfIsWrittenOnlyAsFlagOrDestination := by
  intro i s t h
  have frame : ¬ writesReg i vf → reg vf t = reg vf s := exec_changesOnly h (.reg vf)
  cases i with
  | addReg _ _ | subReg _ _ | shrReg _ _ | subnReg _ _ | shlReg _ _ | addIndex _ =>
    cases h
    exact vf_writeFlag_advance _ _
  | drw _ _ _ =>
    obtain ⟨-, rfl⟩ := unlessFault_next.1 h
    exact vf_writeFlag_advance _ _
  | ldByte _ _ | addByte _ _ | ldReg _ _ | orReg _ _ | andReg _ _ | xorReg _ _ | rnd _ _ | ldRegDelay _ | ldRegKey _ =>
    exact fun hx => frame fun e => hx e.symm
  | loadRegs x =>
    intro hx
    have below : x.val < vf.val := Fin.lt_last_iff_ne_last.2 hx
    exact frame (Nat.not_le.2 below)
  | _ => exact frame id

/-! ## The stack -/

/-- Settles O41, by the frame of the execute step at `sp` and at each entry. -/
theorem onlyCallAndReturnTouchTheStack : Obligations.OnlyCallAndReturnTouchTheStack := by
  intro i s t h
  refine ⟨fun noCall k => exec_changesOnly h (.stack k) ?_, fun noCall noRet => exec_changesOnly h .sp ?_⟩
  · exact fun ⟨nnn, e⟩ => noCall nnn e
  · rintro (e | ⟨nnn, e⟩)
    · exact noRet e
    · exact noCall nnn e

/-! ## The display -/

theorem not_draws {i : Instr} (noCls : i ≠ .cls) (noDrw : ∀ x y n, i ≠ .drw x y n) : ¬ Draws i := by
  rintro (e | ⟨x, y, n, e⟩)
  · exact noCls e
  · exact noDrw x y n e

theorem exec_drawFlag_of_draws {i : Instr} {s t : State} (h : exec i s = .next t) (draws : Draws i) :
    t.drawFlag = true := by
  obtain rfl | ⟨x, y, n, rfl⟩ := draws
  · cases h; rfl
  · obtain ⟨-, rfl⟩ := unlessFault_next.1 h; rfl

theorem exec_drawFlag_of_not_draws {i : Instr} {s t : State} (h : exec i s = .next t) (noDraw : ¬ Draws i) :
    t.drawFlag = s.drawFlag := exec_changesOnly h .drawFlag noDraw

theorem exec_pixel_of_not_draws {i : Instr} {s t : State} (h : exec i s = .next t) (noDraw : ¬ Draws i) (x : Fin 64)
    (y : Fin 32) : pixel x y t = pixel x y s := exec_changesOnly h (.pixel x y) noDraw

theorem exec_keeps_drawFlag_on {i : Instr} {s t : State} (h : exec i s = .next t) (on : s.drawFlag = true) :
    t.drawFlag = true := by
  by_cases draws : Draws i
  · exact exec_drawFlag_of_draws h draws
  · rw [exec_drawFlag_of_not_draws h draws, on]

/-- Settles O42: a drawing instruction sets `draw_flag`, the frame gives all others, and the tick touches neither. -/
theorem onlyDisplayInstructionsTouchTheDisplay : Obligations.OnlyDisplayInstructionsTouchTheDisplay := by
  refine ⟨fun i s t h => ⟨exec_drawFlag_of_draws h, fun noCls noDrw => ?_⟩, fun s t h on => ?_⟩
  · have noDraw := not_draws noCls noDrw
    exact ⟨exec_drawFlag_of_not_draws h noDraw, exec_pixel_of_not_draws h noDraw⟩
  · obtain ⟨op, -, ⟨i, u, -, hu, rfl⟩ | ⟨e, -, rfl⟩⟩ := step_next_cases h
    · exact (tick_drawFlag u).trans (exec_keeps_drawFlag_on hu on)
    · rwa [tick_drawFlag, advance_drawFlag]

/-- The linear index of a pixel, inverted (R19). -/
theorem displayBit_rowMajor {x : Fin 64} {y : Fin 32} {k : Fin 2048} (hk : k.val = y.val * 64 + x.val) (s : State) :
    displayBit k s = pixel x y s := by
  have column : Fin.ofNat 64 (k.val % 64) = x := by ext; simp only [Fin.ofNat]; omega
  have row : Fin.ofNat 32 (k.val / 64) = y := by ext; simp only [Fin.ofNat]; omega
  rw [displayBit, column, row]

theorem displayBit_execCls {s t : State} (h : exec .cls s = .next t) (k : Fin 2048) : displayBit k t = false := by
  cases h
  exact pixelOf_blankDisplay _ _

/-- Settles O57: an output bit is one pixel, so the frame of the pixels is the frame of the output. -/
theorem displayOutputIsRowMajor : Obligations.DisplayOutputIsRowMajor := by
  refine ⟨fun s x y k hk => displayBit_rowMajor hk s, fun s t => displayBit_execCls, ?_⟩
  exact fun i s t h noCls noDrw k => exec_pixel_of_not_draws h (not_draws noCls noDrw) _ _

/-! ## Canonical memories and equal states -/

/-- The cells of a canonical memory are the addresses that read other than their reset contents, with what they read. -/
theorem mem_iff_of_wf {m : Memory} (h : m.wf) (cell : Host.Cell) :
    cell ∈ m ↔ memRead m cell.1 = cell.2 ∧ cell.2 ≠ resetByte cell.1 := by
  induction m with
  | nil => simp [eq_comm]
  | cons head m ih =>
    obtain ⟨rising, listed⟩ := h
    obtain ⟨headFirst, sorted⟩ := List.pairwise_cons.1 rising
    have tail := ih ⟨sorted, fun c hc => listed c (List.mem_cons_of_mem _ hc)⟩
    obtain ⟨a, v⟩ := cell
    obtain ⟨b, w⟩ := head
    rw [memRead_cons, List.mem_cons]
    by_cases hb : b = a
    · subst hb
      have notInTail : (b, v) ∉ m := fun hc => Nat.lt_irrefl b (headFirst _ hc)
      have differs : w ≠ resetByte b := listed (b, w) List.mem_cons_self
      simp only [notInTail, or_false, if_true, Prod.mk.injEq, true_and]
      exact ⟨fun e => ⟨e.symm, e ▸ differs⟩, fun e => e.1.symm⟩
    · have notHead : (a, v) ≠ (b, w) := fun e => hb (congrArg Prod.fst e).symm
      simp only [notHead, false_or, if_neg hb]
      exact tail

/-- Canonical memories that read the same at every address are the same list (R21). -/
theorem memory_ext {m m' : Memory} (h : m.wf) (h' : m'.wf) (same : ∀ a, memRead m a = memRead m' a) : m = m' := by
  have : Std.Irrefl fun c d : Host.Cell => c.1 < d.1 := ⟨fun _ => Nat.lt_irrefl _⟩
  have : Std.Antisymm fun c d : Host.Cell => c.1 < d.1 := ⟨fun _ _ lt gt => absurd gt (Nat.lt_asymm lt)⟩
  exact h.1.eq_of_mem_iff h'.1 fun cell => by rw [mem_iff_of_wf h, mem_iff_of_wf h', same]

/-- Settles O49: every field of the state is the places it holds, the memory by its canonical form. -/
theorem statesAreDeterminedByTheirPlaces : Obligations.StatesAreDeterminedByTheirPlaces := by
  intro s t hs ht same
  have registers : t.v = s.v := Vector.ext fun r hr => same (.reg ⟨r, hr⟩)
  have entries : t.stack = s.stack := Vector.ext fun k hk => same (.stack ⟨k, hk⟩)
  have bytes : t.memory = s.memory := memory_ext ht hs fun a => same (.byte a)
  have keys : t.keyboard = s.keyboard := Vector.ext fun k hk => same (.key ⟨k, hk⟩)
  have pixels : t.display = s.display := display_ext fun x y => same (.pixel x y)
  cases s
  cases t
  rw [State.mk.injEq]
  exact ⟨registers, same .index, same .pc, same .sp, entries, same .delayTimer, same .soundTimer, bytes, keys, pixels,
    same .drawFlag, same .rng⟩

/-! ## Reset -/

theorem font_length : Config.font.length = 80 := rfl

theorem readByte_resetWith (a seed : Nat) : readByte a (State.resetWith seed) = resetByte a := rfl

/-- Above the font memory holds zeros (R26). -/
theorem resetByte_above_font {a : Nat} (h : 0x50 ≤ a) : resetByte a = 0 :=
  List.getD_eq_default _ _ (font_length ▸ h)

theorem reg_resetWith (r : Reg) (seed : Nat) : reg r (State.resetWith seed) = 0 := Vector.getElem_replicate _

theorem stack_resetWith (k : Fin 16) (seed : Nat) : (State.resetWith seed).stack[k] = 0 := Vector.getElem_replicate _

theorem keyDown_resetWith (k : Key) (seed : Nat) : keyDown k (State.resetWith seed) = false := Vector.getElem_replicate _

theorem pixel_resetWith (x : Fin 64) (y : Fin 32) (seed : Nat) : pixel x y (State.resetWith seed) = false :=
  pixelOf_blankDisplay x y

/-- Settles O51, element by element of the table of R26. -/
theorem resetWritesEveryElement : Obligations.ResetWritesEveryElement := by
  refine ⟨font_length, fun seed => ⟨fun r => reg_resetWith r seed, rfl, rfl, rfl, fun k => stack_resetWith k seed, rfl,
    rfl, fun a _ => readByte_resetWith a seed, fun a above _ => ?_, fun k => keyDown_resetWith k seed,
    fun x y => pixel_resetWith x y seed, rfl⟩⟩
  rw [readByte_resetWith, resetByte_above_font above]

/-! ## Before the first reset -/

theorem hostMove_none_refused {m : HostMove} (noReset : ∀ e, m ≠ .reset e) :
    hostMove m none = .error .beforeFirstReset := by
  cases m with
  | reset e => exact absurd rfl (noReset e)
  | load _ | step | writeKey _ _ | drawAck => rfl

/-- A reset forgets the machine it is given, be it one no reset has produced or any state (R201, R207). -/
theorem hostMove_reset (seed : Nat) (machine : Option State) :
    hostMove (.reset seed) machine = .ok (State.resetWith seed, .silent) := by cases machine <;> rfl

/-- Settles O56: every other move is refused on `none`, and reset gives the reset state on every machine. -/
theorem onlyResetWorksBeforeTheFirstReset : Obligations.OnlyResetWorksBeforeTheFirstReset := by
  refine fun m seed => ⟨hostMove_none_refused, hostMove_reset seed none, fun s => ?_⟩
  rw [hostMove_reset, hostMove_reset]

end Sys2Proof.Machine
end

section
/-! PROOFS. Memory and the other spaces (20_memory.md R42 to R56): which instructions write a space, by the frame of the
execute step; that no cycle writes below 0x200; that fetch reads what a store wrote; and which instructions read a space,
by one theorem on two runs of an instruction from states that agree on all it may read. -/

namespace Sys2Proof.Machine

/-! ## Writes of single spaces -/

/-- Settles O43, by the frame of the execute step at each space. -/
theorem keysTimersRngAndIndexAreWrittenOnlyByTheirInstructions :
    Obligations.KeysTimersRngAndIndexAreWrittenOnlyByTheirInstructions := by
  intro i s t h
  refine ⟨fun k => exec_changesOnly h (.key k) id, fun noDelay => exec_changesOnly h .delayTimer ?_,
    fun noSound => exec_changesOnly h .soundTimer ?_, fun noRnd => exec_changesOnly h .rng ?_,
    fun noLd noAdd noGlyph noStore noLoad => exec_changesOnly h .index ?_⟩
  · exact fun ⟨x, e⟩ => noDelay x e
  · exact fun ⟨x, e⟩ => noSound x e
  · exact fun ⟨x, nn, e⟩ => noRnd x nn e
  · rintro (⟨nnn, e⟩ | ⟨x, e⟩ | ⟨x, e⟩ | ⟨x, e⟩ | ⟨x, e⟩)
    · exact noLd nnn e
    · exact noAdd x e
    · exact noGlyph x e
    · exact noStore x e
    · exact noLoad x e

/-- Settles O44, by the frame of the execute step at each byte. -/
theorem onlyStoresWriteMemory : Obligations.OnlyStoresWriteMemory := by
  intro i s t h noBcd noStore a
  refine exec_changesOnly h (.byte a) ?_
  rintro ⟨-, ⟨x, e⟩ | ⟨x, e⟩⟩
  · exact noBcd x e
  · exact noStore x e

/-- An execute step that completes writes inside the program region only (R48). -/
theorem exec_readByte_below_0200 {i : Instr} {s t : State} (h : exec i s = .next t) {a : Nat} (low : a < 0x200) :
    readByte a t = readByte a s :=
  exec_changesOnly h (.byte a) fun ⟨⟨above, _⟩, _⟩ => Nat.not_le.2 low above

/-- Settles O45: neither the execute step, nor the skip of an unknown word, nor the tick writes below 0x200. -/
theorem noCycleWritesBelow0200 : Obligations.NoCycleWritesBelow0200 := by
  intro s t h a low
  obtain ⟨op, -, ⟨i, u, -, hu, rfl⟩ | ⟨e, -, rfl⟩⟩ := step_next_cases h
  · exact (readByte_tick a u).trans (exec_readByte_below_0200 hu low)
  · rw [readByte_tick, readByte_advance]

/-! ## A stored pair of registers as an instruction -/

/-- A completed FX55 leaves `V[r]` at `I + r` for every `r` up to `X` (R144). -/
theorem readByte_of_execStoreRegs {x r : Reg} {s t : State} (h : exec (.storeRegs x) s = .next t)
    (hr : r.val ≤ x.val) : readByte (effAddr r.val s) t = reg r s := by
  obtain ⟨-, rfl⟩ := unlessFault_next.1 h
  have inside : effAddr 0 s ≤ effAddr r.val s ∧ effAddr r.val s < effAddr 0 s + (regsUpTo x s).length := by
    simp only [effAddr, regsUpTo_length]; omega
  have offset : effAddr r.val s - effAddr 0 s = r.val := by simp only [effAddr]; omega
  rw [readByte_advance, readByte_setIndex, readByte_storeBytes, if_pos inside, offset, regsUpTo_getD x s r hr]

/-- A completed FX55 stored no byte above 0xFFF (R48). -/
theorem effAddr_le_of_execStoreRegs {x : Reg} {s t : State} (h : exec (.storeRegs x) s = .next t) :
    effAddr x.val s ≤ 0xFFF := by
  obtain ⟨checked, -⟩ := unlessFault_next.1 h
  exact (checkWrite_none.1 checked).2

/-- Settles O34: the two bytes fetched are the two stored ones, the one at the lower address as the high byte. -/
theorem storedBytesAreTheNextInstruction : Obligations.StoredBytesAreTheNextInstruction := by
  intro x a b s t u h next hb memory pc
  have inRange := effAddr_le_of_execStoreRegs h
  have second : effAddr a.val s + 1 = effAddr b.val s := by simp only [effAddr]; omega
  have fetchable : u.pc.toNat ≤ 0x0FFE := by simp only [effAddr] at inRange pc; omega
  refine ⟨_, fetch_ok.2 ⟨fetchable, rfl⟩, ?_⟩
  rw [wordOfBytes_toNat, readByte_congr memory, readByte_congr memory, pc, second,
    readByte_of_execStoreRegs h (by omega), readByte_of_execStoreRegs h hb]

/-! ## One update on two states that agree outside some places

The updates keep the agreement whether or not the place they write is one of those places. -/

section
variable {w : Place → Prop} {s s' : State}

theorem ChangesOnly.writeReg_congr (same : ChangesOnly w s s') (r : Reg) {b b' : Byte} (hb : b' = b) :
    ChangesOnly w (writeReg r b s) (writeReg r b' s') := by
  subst hb
  intro p hp
  have atPlace := same p hp
  cases p with
  | reg q =>
    show reg q _ = reg q _
    rw [reg_writeReg, reg_writeReg, atPlace]
  | _ => exact atPlace

theorem ChangesOnly.writeFlag_congr (same : ChangesOnly w s s') {f f' : Bool} (hf : f' = f) :
    ChangesOnly w (writeFlag f s) (writeFlag f' s') := same.writeReg_congr vf (congrArg flagByte hf)

theorem ChangesOnly.setIndex_congr (same : ChangesOnly w s s') {i i' : Word} (hi : i' = i) :
    ChangesOnly w (setIndex i s) (setIndex i' s') := by
  intro p hp; cases p with
  | index => exact hi
  | _ => exact same _ hp

theorem ChangesOnly.setPc_congr (same : ChangesOnly w s s') {a a' : Word} (ha : a' = a) :
    ChangesOnly w (setPc a s) (setPc a' s') := by
  intro p hp; cases p with
  | pc => exact ha
  | _ => exact same _ hp

theorem ChangesOnly.setDelay_congr (same : ChangesOnly w s s') {b b' : Byte} (hb : b' = b) :
    ChangesOnly w (setDelay b s) (setDelay b' s') := by
  intro p hp; cases p with
  | delayTimer => exact hb
  | _ => exact same _ hp

theorem ChangesOnly.setSound_congr (same : ChangesOnly w s s') {b b' : Byte} (hb : b' = b) :
    ChangesOnly w (setSound b s) (setSound b' s') := by
  intro p hp; cases p with
  | soundTimer => exact hb
  | _ => exact same _ hp

theorem ChangesOnly.showDisplay_congr (same : ChangesOnly w s s') {d d' : Display} (hd : d' = d) :
    ChangesOnly w (showDisplay d s) (showDisplay d' s') := by
  subst hd
  intro p hp; cases p with
  | drawFlag | pixel _ _ => rfl
  | _ => exact same _ hp

theorem ChangesOnly.storeBytes_congr (same : ChangesOnly w s s') {a a' : Nat} {bytes bytes' : List Byte} (ha : a' = a)
    (hbytes : bytes' = bytes) : ChangesOnly w (storeBytes a bytes s) (storeBytes a' bytes' s') := by
  subst ha hbytes
  intro p hp
  have atPlace := same p hp
  cases p with
  | byte c =>
    show readByte c _ = readByte c _
    rw [readByte_storeBytes, readByte_storeBytes, atPlace]
  | _ => exact atPlace

theorem ChangesOnly.push_congr (same : ChangesOnly w s s') (hsp : s'.sp = s.sp) {a a' : Word} (ha : a' = a) :
    (push a s = none ∧ push a' s' = none) ∨
      ∃ u u', push a s = some u ∧ push a' s' = some u' ∧ ChangesOnly w u u' := by
  subst ha
  by_cases room : s.sp.val < 16
  · refine .inr ⟨_, _, push_some.2 ⟨room, rfl⟩, push_some.2 ⟨hsp ▸ room, rfl⟩, ?_⟩
    intro p hp
    have atPlace := same p hp
    cases p with
    | sp => simp only [sameAt, hsp]
    | stack k => simp only [sameAt, Fin.getElem_fin, Vector.getElem_set, hsp] at atPlace ⊢; rw [atPlace]
    | _ => exact atPlace
  · have full : s.sp.val = 16 := by omega
    exact .inl ⟨push_none.2 full, push_none.2 (hsp ▸ full)⟩

theorem ChangesOnly.pop_congr (same : ChangesOnly w s s') (hsp : s'.sp = s.sp)
    (hstack : s'.stack = s.stack) :
    (pop s = none ∧ pop s' = none) ∨
      ∃ a u u', pop s = some (a, u) ∧ pop s' = some (a, u') ∧ ChangesOnly w u u' := by
  by_cases used : 0 < s.sp.val
  · refine .inr ⟨_, _, _, pop_some.2 ⟨used, rfl, rfl⟩, pop_some.2 ⟨hsp ▸ used, ?_, rfl⟩, ?_⟩
    · simp only [hsp, hstack]
    · intro p hp
      cases p with
      | sp => simp only [sameAt, hsp]
      | _ => exact same _ hp
  · have empty : s.sp.val = 0 := by omega
    exact .inl ⟨pop_none.2 empty, pop_none.2 (hsp ▸ empty)⟩

theorem ChangesOnly.advance_congr (same : ChangesOnly w s s') : ChangesOnly w (advance s) (advance s') := by
  intro p hp; cases p with
  | pc => exact congrArg (· + 2) (same .pc hp)
  | _ => exact same _ hp

theorem ChangesOnly.skipIf_congr (same : ChangesOnly w s s') {c c' : Bool} (hc : c' = c) :
    ChangesOnly w (skipIf c s) (skipIf c' s') := by
  subst hc
  cases c' with
  | false => exact same.advance_congr
  | true =>
    intro p hp; cases p with
    | pc => exact congrArg (· + 4) (same .pc hp)
    | _ => exact same _ hp

theorem ChangesOnly.drawRandom_congr (same : ChangesOnly w s s') :
    ChangesOnly w (drawRandom s).2 (drawRandom s').2 := by
  intro p hp; cases p with
  | rng => exact congrArg (fun g : Rng => Rng.mk g.seed (g.draws + 1)) (same .rng hp)
  | _ => exact same _ hp

theorem ChangesOnly.loadUpTo_congr (same : ChangesOnly w s s') (x : Reg)
    (loaded : ∀ k, readByte (effAddr k s') s' = readByte (effAddr k s) s) :
    ChangesOnly w (loadUpTo x s) (loadUpTo x s') := by
  intro p hp
  have atPlace := same p hp
  cases p with
  | reg r =>
    show reg r _ = reg r _
    rw [reg_loadUpTo, reg_loadUpTo, loaded, atPlace]
  | _ => simpa only [sameAt, readByte, keyDown, pixel, loadUpTo_index, loadUpTo_pc, loadUpTo_sp, loadUpTo_stack,
      loadUpTo_delayTimer, loadUpTo_soundTimer, loadUpTo_memory, loadUpTo_keyboard, loadUpTo_display,
      loadUpTo_drawFlag, loadUpTo_rng] using atPlace

theorem ChangesOnly.writeReg_advance_congr (same : ChangesOnly w s s') (r : Reg) {b b' : Byte} (hb : b' = b) :
    ChangesOnly w (advance (writeReg r b s)) (advance (writeReg r b' s')) :=
  (same.writeReg_congr r hb).advance_congr

theorem ChangesOnly.writeWithFlag_congr (same : ChangesOnly w s s') (r : Reg) {b b' : Byte} {f f' : Bool} (hb : b' = b)
    (hf : f' = f) : ChangesOnly w (writeWithFlag r b f s) (writeWithFlag r b' f' s') :=
  ((same.writeReg_congr r hb).writeFlag_congr hf).advance_congr

/-- The skip on a key reads the register and the keys, also for the fault it raises (R114, R115). -/
theorem agreeOutside_skipOnKey (same : ChangesOnly w s s') (x : Reg) (wanted : Bool) (sameKey : reg x s' = reg x s)
    (keys : ∀ k, keyDown k s' = keyDown k s) : AgreeOutside w (skipOnKey x wanted s) (skipOnKey x wanted s') := by
  simp only [skipOnKey, sameKey, keys]
  split_ifs
  · exact same.skipIf_congr rfl
  · rfl

end

/-! ## What an instruction may read -/

/-- The places the execute step of an instruction may read, space by space. The registers, `I`, `pc` and memory, which R42
does not name, count as read by every one. -/
def mayRead (i : Instr) : Place → Prop
  | .reg _ | .index | .pc | .byte _ => True
  | .sp => i = .ret ∨ ∃ nnn, i = .call nnn
  | .stack _ => i = .ret
  | .delayTimer => ∃ x, i = .ldRegDelay x
  | .soundTimer | .drawFlag => False
  | .key _ => (∃ x, i = .skp x) ∨ (∃ x, i = .sknp x) ∨ ∃ x, i = .ldRegKey x
  | .pixel _ _ => ∃ x y n, i = .drw x y n
  | .rng => ∃ x nn, i = .rnd x nn

/-- Noninterference of the execute step: from two states that agree on all an instruction may read, it completes with
states that differ at most where those did, or raises the same fault. -/
theorem exec_agreeOutside {w : Place → Prop} {i : Instr} {s s' : State} (same : ChangesOnly w s s')
    (unread : ∀ p, w p → ¬ mayRead i p) : AgreeOutside w (exec i s) (exec i s') := by
  have reads : ∀ p, mayRead i p → sameAt p s s' := fun p hp => same p fun differs => unread p differs hp
  have regs : ∀ r, reg r s' = reg r s := fun r => reads (.reg r) trivial
  have index : s'.index = s.index := reads .index trivial
  have pc : s'.pc = s.pc := reads .pc trivial
  have bytes : ∀ a, readByte a s' = readByte a s := fun a => reads (.byte a) trivial
  have addr : ∀ k, effAddr k s' = effAddr k s := fun k => congrArg (fun j : Word => j.toNat + k) index
  cases i with
  | cls => exact agreeOutside_next (same.showDisplay_congr rfl).advance_congr
  | ret =>
    have stack : s'.stack = s.stack := Vector.ext fun k hk => reads (.stack ⟨k, hk⟩) rfl
    obtain ⟨h, h'⟩ | ⟨a, u, u', h, h', agree⟩ := same.pop_congr (reads .sp (.inl rfl)) stack
    · simp only [exec, execRet, h, h']; rfl
    · simp only [exec, execRet, h, h']; exact agree.setPc_congr rfl
  | call nnn =>
    obtain ⟨h, h'⟩ | ⟨u, u', h, h', agree⟩ :=
      same.push_congr (reads .sp (.inr ⟨nnn, rfl⟩)) (congrArg (· + 2) pc)
    · simp only [exec, execCall, h, h']; rfl
    · simp only [exec, execCall, h, h']; exact agree.setPc_congr rfl
  | jp _ => exact agreeOutside_next (same.setPc_congr rfl)
  | jpV0 _ => exact agreeOutside_next (same.setPc_congr (by rw [regs]))
  | seByte _ _ | sneByte _ _ | seReg _ _ | sneReg _ _ =>
    exact agreeOutside_next (same.skipIf_congr (by simp only [regs]))
  | skp x => exact agreeOutside_skipOnKey same x true (regs x) fun k => reads (.key k) (.inl ⟨x, rfl⟩)
  | sknp x => exact agreeOutside_skipOnKey same x false (regs x) fun k => reads (.key k) (.inr (.inl ⟨x, rfl⟩))
  | ldByte _ _ | addByte _ _ | ldReg _ _ | orReg _ _ | andReg _ _ | xorReg _ _ =>
    exact agreeOutside_next (same.writeReg_advance_congr _ (by simp only [regs]))
  | ldRegDelay x => exact agreeOutside_next (same.writeReg_advance_congr x (reads .delayTimer ⟨x, rfl⟩))
  | rnd x nn =>
    have rng : s'.rng = s.rng := reads .rng ⟨x, nn, rfl⟩
    exact agreeOutside_next (same.drawRandom_congr.writeReg_advance_congr x (by simp only [drawRandom_byte, rng]))
  | ldRegKey x =>
    have keys : ∀ k, keyDown k s' = keyDown k s := fun k => reads (.key k) (.inr (.inr ⟨x, rfl⟩))
    have lowest : lowestKey s' = lowestKey s := by simp only [lowestKey, keys]
    simp only [exec, execLdRegKey, lowest]
    cases lowestKey s with
    | none => exact same
    | some k => exact same.writeReg_advance_congr x rfl
  | addReg _ _ | subReg _ _ | shrReg _ _ | subnReg _ _ | shlReg _ _ =>
    exact agreeOutside_next (same.writeWithFlag_congr _ (by simp only [regs]) (by simp only [regs]))
  | ldIndex _ => exact agreeOutside_next (same.setIndex_congr rfl).advance_congr
  | ldGlyph _ => exact agreeOutside_next (same.setIndex_congr (by rw [regs])).advance_congr
  | addIndex _ =>
    exact agreeOutside_next
      ((same.setIndex_congr (by rw [regs, index])).writeFlag_congr (by rw [regs, index])).advance_congr
  | drw x y n =>
    have display : s'.display = s.display := display_ext fun a b => reads (.pixel a b) ⟨x, y, n, rfl⟩
    have check : checkSprite n s' = checkSprite n s := by simp only [checkSprite, addr]
    have drawn : drawSprite x y n s' = drawSprite x y n s := by
      simp only [drawSprite, spriteBytes, regs, addr, bytes, display]
    simp only [exec, execDrw, check, drawn]
    exact agreeOutside_unlessFault _ ((same.showDisplay_congr rfl).writeFlag_congr rfl).advance_congr
  | ldDelayReg x => exact agreeOutside_next (same.setDelay_congr (regs x)).advance_congr
  | ldSoundReg x => exact agreeOutside_next (same.setSound_congr (regs x)).advance_congr
  | ldBcd x =>
    simp only [exec, execLdBcd, addr, regs]
    exact agreeOutside_unlessFault _ (same.storeBytes_congr rfl rfl).advance_congr
  | storeRegs x =>
    have stored : regsUpTo x s' = regsUpTo x s := by simp only [regsUpTo, regs]
    simp only [exec, execStoreRegs, addr, stored, index]
    exact agreeOutside_unlessFault _ ((same.storeBytes_congr rfl rfl).setIndex_congr rfl).advance_congr
  | loadRegs x =>
    have loaded : ∀ k, readByte (effAddr k s') s' = readByte (effAddr k s) s := fun k => by rw [addr, bytes]
    simp only [exec, execLoadRegs, addr, index]
    exact agreeOutside_unlessFault _ ((same.loadUpTo_congr x loaded).setIndex_congr rfl).advance_congr

/-! ## States that differ in one space -/

theorem changesOnly_with_keyboard (keys : Vector Bool 16) (s : State) :
    ChangesOnly (fun p => ∃ k, p = .key k) s { s with keyboard := keys } := by
  intro p hp; cases p with
  | key k => exact absurd ⟨k, rfl⟩ hp
  | _ => rfl

theorem changesOnly_with_drawFlag (f : Bool) (s : State) :
    ChangesOnly (fun p => p = .drawFlag) s { s with drawFlag := f } := by
  intro p hp; cases p with
  | drawFlag => exact absurd rfl hp
  | _ => rfl

theorem changesOnly_with_display (d : Display) (s : State) :
    ChangesOnly (fun p => ∃ x y, p = .pixel x y) s { s with display := d } := by
  intro p hp; cases p with
  | pixel x y => exact absurd ⟨x, y, rfl⟩ hp
  | _ => rfl

theorem changesOnly_with_rng (g : Rng) (s : State) : ChangesOnly (fun p => p = .rng) s { s with rng := g } := by
  intro p hp; cases p with
  | rng => exact absurd rfl hp
  | _ => rfl

theorem changesOnly_with_stack (entries : Vector Word 16) (s : State) :
    ChangesOnly (fun p => ∃ k, p = .stack k) s { s with stack := entries } := by
  intro p hp; cases p with
  | stack k => exact absurd ⟨k, rfl⟩ hp
  | _ => rfl

theorem changesOnly_with_sp (n : Fin 17) (s : State) : ChangesOnly (fun p => p = .sp) s { s with sp := n } := by
  intro p hp; cases p with
  | sp => exact absurd rfl hp
  | _ => rfl

/-- Settles O58: each clause is the noninterference of the execute step, with one space as what the states differ in. -/
theorem spacesAreReadOnlyByTheirInstructions : Obligations.SpacesAreReadOnlyByTheirInstructions := by
  refine fun i s => ⟨fun keys noSkp noSknp noWait => exec_agreeOutside (changesOnly_with_keyboard keys s) ?_,
    fun b noDelay => exec_agreeOutside (changesOnly_setDelay b s rfl) ?_,
    fun b => exec_agreeOutside (changesOnly_setSound b s rfl) ?_,
    fun f => exec_agreeOutside (changesOnly_with_drawFlag f s) ?_,
    fun d noDrw => exec_agreeOutside (changesOnly_with_display d s) ?_,
    fun g noRnd => exec_agreeOutside (changesOnly_with_rng g s) ?_,
    fun entries noRet => exec_agreeOutside (changesOnly_with_stack entries s) ?_,
    fun n noCall noRet => exec_agreeOutside (changesOnly_with_sp n s) ?_⟩
  · rintro _ ⟨k, rfl⟩ (⟨x, e⟩ | ⟨x, e⟩ | ⟨x, e⟩)
    · exact noSkp x e
    · exact noSknp x e
    · exact noWait x e
  · rintro _ rfl ⟨x, e⟩; exact noDelay x e
  · rintro _ rfl; exact id
  · rintro _ rfl; exact id
  · rintro _ ⟨a, b, rfl⟩ ⟨x, y, n, e⟩; exact noDrw x y n e
  · rintro _ rfl ⟨x, nn, e⟩; exact noRnd x nn e
  · rintro _ ⟨k, rfl⟩ e; exact noRet e
  · rintro _ rfl (e | ⟨nnn, e⟩)
    · exact noRet e
    · exact noCall nnn e

end Sys2Proof.Machine
end

section
/-! PROOFS. The encoding (30_encoding.md R60 to R71): the fields of a word bit by bit; the decoder undoes the encoder
and the encoder the decoder; the rejected words; the words of each row of the opcode map decode to the row's
instruction. -/

namespace Sys2Proof

open Machine

/-! ## The fields of a word, bit by bit -/

theorem fieldX_testBit (op : Word) {k : Nat} (hk : k < 4) : (fieldX op).val.testBit k = op.getLsbD (8 + k) := by
  have digit : (fieldX op).val = (op.extractLsb' 8 4).toNat := Nat.mod_eq_of_lt (op.extractLsb' 8 4).isLt
  rw [digit, BitVec.testBit_toNat]
  simp [hk]

theorem fieldY_testBit (op : Word) {k : Nat} (hk : k < 4) : (fieldY op).val.testBit k = op.getLsbD (4 + k) := by
  have digit : (fieldY op).val = (op.extractLsb' 4 4).toNat := Nat.mod_eq_of_lt (op.extractLsb' 4 4).isLt
  rw [digit, BitVec.testBit_toNat]
  simp [hk]

/-- Settles O1: a bit of a slice is the bit of the word so far above the slice's lowest. -/
theorem fieldsAreTheSlicesOfTheWord : Obligations.FieldsAreTheSlicesOfTheWord := by
  refine fun op => ⟨?t, fun k hk => fieldX_testBit op hk, fun k hk => fieldY_testBit op hk, ?n, ?nn, ?nnn⟩
  case t => intro k hk; simp [fieldT, hk]
  case n => intro k hk; simp [fieldN, hk]
  case nn => intro k hk; simp [fieldNN, hk]
  case nnn => intro k hk; simp [fieldNNN, hk]

/-! ## The fields of an encoded word, format by format

`base` is the family's digit above zeros where the operands go, as in every arm of the encoder. -/

section
variable {base n : Nat} (nnn : Addr) (nn : Byte) (x y : Reg)

@[simp] theorem fieldT_encodeNNN (digit : base % 0x1000 = 0) (h : base ≤ 0xF000) :
    (fieldT (encodeNNN base nnn)).toNat = base / 0x1000 := by
  rw [fieldT_toNat, encodeNNN_toNat nnn h]; omega

@[simp] theorem fieldNNN_encodeNNN (digit : base % 0x1000 = 0) (h : base ≤ 0xF000) :
    fieldNNN (encodeNNN base nnn) = nnn := by
  apply BitVec.eq_of_toNat_eq
  rw [fieldNNN_toNat, encodeNNN_toNat nnn h]; omega

@[simp] theorem fieldT_encodeXNN (digit : base % 0x1000 = 0) (h : base ≤ 0xF000) :
    (fieldT (encodeXNN base x nn)).toNat = base / 0x1000 := by
  rw [fieldT_toNat, encodeXNN_toNat x nn h]; omega

@[simp] theorem fieldX_encodeXNN (digit : base % 0x1000 = 0) (h : base ≤ 0xF000) :
    fieldX (encodeXNN base x nn) = x := by
  apply Fin.ext
  rw [fieldX_val, encodeXNN_toNat x nn h]; omega

@[simp] theorem fieldNN_encodeXNN (digit : base % 0x1000 = 0) (h : base ≤ 0xF000) :
    fieldNN (encodeXNN base x nn) = nn := by
  apply BitVec.eq_of_toNat_eq
  rw [fieldNN_toNat, encodeXNN_toNat x nn h]; omega

@[simp] theorem fieldT_encodeXYN (digit : base % 0x1000 = 0) (h : base ≤ 0xF000) (hn : n < 0x10) :
    (fieldT (encodeXYN base x y n)).toNat = base / 0x1000 := by
  rw [fieldT_toNat, encodeXYN_toNat x y h hn]; omega

@[simp] theorem fieldX_encodeXYN (digit : base % 0x1000 = 0) (h : base ≤ 0xF000) (hn : n < 0x10) :
    fieldX (encodeXYN base x y n) = x := by
  apply Fin.ext
  rw [fieldX_val, encodeXYN_toNat x y h hn]; omega

@[simp] theorem fieldY_encodeXYN (digit : base % 0x1000 = 0) (h : base ≤ 0xF000) (hn : n < 0x10) :
    fieldY (encodeXYN base x y n) = y := by
  apply Fin.ext
  rw [fieldY_val, encodeXYN_toNat x y h hn]; omega

@[simp] theorem fieldN_encodeXYN (digit : base % 0x1000 = 0) (h : base ≤ 0xF000) (hn : n < 0x10) :
    fieldN (encodeXYN base x y n) = BitVec.ofNat 4 n := by
  apply BitVec.eq_of_toNat_eq
  rw [fieldN_toNat, encodeXYN_toNat x y h hn, BitVec.toNat_ofNat]; omega

@[simp] theorem fieldT_encodeXKK (free : base / 0x100 % 0x10 = 0) (h : base ≤ 0xF0FF) :
    (fieldT (encodeXKK base x)).toNat = base / 0x1000 := by
  rw [fieldT_toNat, encodeXKK_toNat x h]; omega

@[simp] theorem fieldX_encodeXKK (free : base / 0x100 % 0x10 = 0) (h : base ≤ 0xF0FF) :
    fieldX (encodeXKK base x) = x := by
  apply Fin.ext
  rw [fieldX_val, encodeXKK_toNat x h]; omega

@[simp] theorem fieldNN_encodeXKK (free : base / 0x100 % 0x10 = 0) (h : base ≤ 0xF0FF) :
    (fieldNN (encodeXKK base x)).toNat = base % 0x100 := by
  rw [fieldNN_toNat, encodeXKK_toNat x h]; omega

end

/-! ## The decoder undoes the encoder -/

/-- The decoder reads every instruction back from its word: the family's digit and the fixed low bits select the
instruction's own arm, and the fields there are its operands. -/
theorem decodeWord_encode (i : Instr) : decodeWord (encode i) = .ok i := by
  cases i with
  | cls | ret => rfl
  | jp _ | call _ | ldIndex _ | jpV0 _ => simp [encode, decodeWord]
  | seByte _ _ | sneByte _ _ | ldByte _ _ | addByte _ _ | rnd _ _ => simp [encode, decodeWord]
  | seReg _ _ | sneReg _ _ => simp [encode, decodeWord]
  | ldReg _ _ | orReg _ _ | andReg _ _ | xorReg _ _ | addReg _ _ | subReg _ _ | shrReg _ _ | subnReg _ _ | shlReg _ _ =>
    simp [encode, decodeWord, decodeFamily8]
  | drw _ _ n => simp [encode, decodeWord, n.isLt]
  | skp _ | sknp _ => simp [encode, decodeWord, decodeFamilyE]
  | ldRegDelay _ | ldRegKey _ | ldDelayReg _ | ldSoundReg _ | addIndex _ | ldGlyph _ | ldBcd _ | storeRegs _
  | loadRegs _ => simp [encode, decodeWord, decodeFamilyF]

/-- Two bytes as they lie in memory decode as the word they were laid out from, and the bytes after them are left. -/
theorem decode_bytes_ok {op : Word} {i : Instr} (h : decodeWord op = .ok i) (rest : List Byte) :
    decode (highByte op :: lowByte op :: rest) = .ok (i, rest) := by
  simp only [decode, wordOfBytes_highByte_lowByte, h]

/-- Settles O3: the word is read back by its fields, and the two bytes give the word. -/
theorem decodeOfEncodeIsTheInstruction : Obligations.DecodeOfEncodeIsTheInstruction :=
  fun i rest => ⟨decodeWord_encode i, decode_bytes_ok (decodeWord_encode i) rest⟩

/-! ## The encoder undoes the decoder -/

section
variable {op : Word} {base n : Nat}

theorem encodeNNN_fields (family : op.toNat / 0x1000 * 0x1000 = base) : encodeNNN base (fieldNNN op) = op := by
  apply BitVec.eq_of_toNat_eq
  rw [encodeNNN_toNat _ (by omega), fieldNNN_toNat]; omega

theorem encodeXNN_fields (family : op.toNat / 0x1000 * 0x1000 = base) :
    encodeXNN base (fieldX op) (fieldNN op) = op := by
  apply BitVec.eq_of_toNat_eq
  rw [encodeXNN_toNat _ _ (by omega), fieldX_val, fieldNN_toNat]; omega

theorem encodeXYN_fields (fixed : op.toNat / 0x1000 * 0x1000 + op.toNat % 0x10 = base + n) (hn : n < 0x10)
    (digit : base % 0x1000 = 0) : encodeXYN base (fieldX op) (fieldY op) n = op := by
  apply BitVec.eq_of_toNat_eq
  rw [encodeXYN_toNat _ _ (by omega) hn, fieldX_val, fieldY_val]; omega

theorem encodeXKK_fields (fixed : op.toNat / 0x1000 * 0x1000 + op.toNat % 0x100 = base) :
    encodeXKK base (fieldX op) = op := by
  apply BitVec.eq_of_toNat_eq
  rw [encodeXKK_toNat _ (by omega), fieldX_val]; omega

end

theorem fieldN_eq_zero (op : Word) : fieldN op = 0 ↔ op.toNat % 0x10 = 0 := by
  simp [← BitVec.toNat_inj, fieldN_toNat]

theorem encode_of_decodeFamily0 {op : Word} {i : Instr} (h : decodeFamily0 op = .ok i) : encode i = op := by
  unfold decodeFamily0 at h
  split_ifs at h with isCls isRet
  · cases h; exact isCls.symm
  · cases h; exact isRet.symm
  · cases h

theorem encode_of_decodeFamily8 {op : Word} {i : Instr} (family : op.toNat / 0x1000 = 0x8)
    (h : decodeFamily8 op = .ok i) : encode i = op := by
  simp only [decodeFamily8, fieldN_toNat] at h
  split at h <;> cases h <;> exact encodeXYN_fields (by omega) (by decide) (by decide)

theorem encode_of_decodeFamilyE {op : Word} {i : Instr} (family : op.toNat / 0x1000 = 0xE)
    (h : decodeFamilyE op = .ok i) : encode i = op := by
  simp only [decodeFamilyE, fieldNN_toNat] at h
  split at h <;> cases h <;> exact encodeXKK_fields (by omega)

theorem encode_of_decodeFamilyF {op : Word} {i : Instr} (family : op.toNat / 0x1000 = 0xF)
    (h : decodeFamilyF op = .ok i) : encode i = op := by
  simp only [decodeFamilyF, fieldNN_toNat] at h
  split at h <;> cases h <;> exact encodeXKK_fields (by omega)

/-- Settles O4, family by family: every bit is the family's digit, an operand, or a fixed bit that the arm compared.
Case `h_k` is the decoder's arm for `T` = k - 1. -/
theorem encodeOfDecodeIsTheWord : Obligations.EncodeOfDecodeIsTheWord := by
  intro op i h
  simp only [decodeWord, fieldT_toNat, fieldN_eq_zero] at h
  split at h
  case h_1 => exact encode_of_decodeFamily0 h
  case h_2 | h_3 | h_11 | h_12 => cases h; exact encodeNNN_fields (by omega)
  case h_4 | h_5 | h_7 | h_8 | h_13 => cases h; exact encodeXNN_fields (by omega)
  case h_6 | h_10 =>
    split_ifs at h with zero
    · cases h; exact encodeXYN_fields (by omega) (by decide) (by decide)
    · cases h
  case h_9 family => exact encode_of_decodeFamily8 family h
  case h_14 family =>
    cases h; exact encodeXYN_fields (by rw [family, fieldN_toNat]) (fieldN op).isLt (by decide)
  case h_15 family => exact encode_of_decodeFamilyE family h
  case h_16 family => exact encode_of_decodeFamilyF family h
  case h_17 => cases h

/-! ## The rejected words

An arm of the decoder rejects with the word, where the condition `P` for it holds, or gives an instruction, where `P`
fails. -/

section
variable {op : Word} {i : Instr} {e : DecodeError} {P : Prop}

theorem unknown_error (hP : P) : unknown op = .error e ↔ e = .unknownOpcode op ∧ P := by
  simp [unknown, eq_comm, hP]

theorem ok_error (hP : ¬ P) :
    (.ok i : Except DecodeError Instr) = .error e ↔ e = .unknownOpcode op ∧ P := by
  simp [hP]

theorem decodeFamily0_error :
    decodeFamily0 op = .error e ↔ e = .unknownOpcode op ∧ op ≠ 0x00E0 ∧ op ≠ 0x00EE := by
  unfold decodeFamily0
  split
  next isCls => exact ok_error fun other => other.1 isCls
  next notCls =>
    split
    next isRet => exact ok_error fun other => other.2 isRet
    next notRet => exact unknown_error ⟨notCls, notRet⟩

theorem decodeFamily8_error :
    decodeFamily8 op = .error e ↔
      e = .unknownOpcode op ∧ op.toNat % 0x10 ∈ [0x8, 0x9, 0xA, 0xB, 0xC, 0xD, 0xF] := by
  simp only [decodeFamily8, fieldN_toNat]
  split
  case h_10 => simp only [imp_false] at *; exact unknown_error (by simp; omega)
  all_goals exact ok_error (by simp [*])

theorem decodeFamilyE_error :
    decodeFamilyE op = .error e ↔ e = .unknownOpcode op ∧ op.toNat % 0x100 ∉ [0x9E, 0xA1] := by
  simp only [decodeFamilyE, fieldNN_toNat]
  split
  case h_3 => simp only [imp_false] at *; exact unknown_error (by simp [*])
  all_goals exact ok_error (by simp [*])

theorem decodeFamilyF_error :
    decodeFamilyF op = .error e ↔ e = .unknownOpcode op ∧
      op.toNat % 0x100 ∉ [0x07, 0x0A, 0x15, 0x18, 0x1E, 0x29, 0x33, 0x55, 0x65] := by
  simp only [decodeFamilyF, fieldNN_toNat]
  split
  case h_10 => simp only [imp_false] at *; exact unknown_error (by simp [*])
  all_goals exact ok_error (by simp [*])

end

/-- Settles O6: each family rejects its own words, and the families that compare no low bits reject none.
Case `h_k` is the decoder's arm for `T` = k - 1. -/
theorem unknownWordsAreExactlyThese : Obligations.UnknownWordsAreExactlyThese := by
  intro op e
  simp only [decodeWord, fieldT_toNat, fieldN_eq_zero]
  split
  case h_1 family => simp [family, decodeFamily0_error]
  case h_6 family | h_10 family =>
    split
    next zero => exact ok_error (by simp [family, zero])
    next nonzero => exact unknown_error (by simp [family, nonzero])
  case h_9 family => simp [family, decodeFamily8_error]
  case h_15 family => simp [family, decodeFamilyE_error]
  case h_16 family => simp [family, decodeFamilyF_error]
  case h_17 => simp only [imp_false] at *; have := op.isLt; omega
  all_goals exact ok_error (by simp [*])

/-! ## The words of each row of the opcode map -/

/-- Every word a row accepts is the word of the instruction `f` makes of it, so the decoder reads it as that. -/
theorem wordsDecodeTo_of_encode {mask value : Word} {f : Word → Instr}
    (h : ∀ op : Word, op &&& mask = value → encode (f op) = op) : WordsDecodeTo mask value f :=
  fun op hop => (congrArg decodeWord (h op hop)).symm.trans (decodeWord_encode (f op))

/-! The rows of one format: the mask fixes the bits that are no operands, and the instruction encodes as the row's value
with its operands. -/

theorem wordsDecodeTo_fixed {value : Word} {i : Instr} (hi : encode i = value) :
    WordsDecodeTo 0xFFFF value fun _ => i :=
  wordsDecodeTo_of_encode fun op hop => hi.trans (hop.symm.trans (and_FFFF op))

theorem wordsDecodeTo_NNN {value : Word} {f : Addr → Instr} (hf : ∀ nnn, encode (f nnn) = encodeNNN value.toNat nnn) :
    WordsDecodeTo 0xF000 value fun op => f (fieldNNN op) :=
  wordsDecodeTo_of_encode fun op hop => (hf _).trans (encodeNNN_fields (by rw [← and_F000_toNat, hop]))

theorem wordsDecodeTo_XNN {value : Word} {f : Reg → Byte → Instr}
    (hf : ∀ x nn, encode (f x nn) = encodeXNN value.toNat x nn) :
    WordsDecodeTo 0xF000 value fun op => f (fieldX op) (fieldNN op) :=
  wordsDecodeTo_of_encode fun op hop => (hf _ _).trans (encodeXNN_fields (by rw [← and_F000_toNat, hop]))

theorem wordsDecodeTo_XY {value : Word} {f : Reg → Reg → Instr}
    (hf : ∀ x y, encode (f x y) = encodeXYN (value.toNat / 0x1000 * 0x1000) x y (value.toNat % 0x10)) :
    WordsDecodeTo 0xF00F value fun op => f (fieldX op) (fieldY op) := by
  refine wordsDecodeTo_of_encode fun op hop => (hf _ _).trans (encodeXYN_fields ?_ (by omega) (by omega))
  rw [← hop, and_F00F_toNat]; omega

theorem wordsDecodeTo_XYN {value : Word} {f : Reg → Reg → Nibble → Instr}
    (hf : ∀ x y n, encode (f x y n) = encodeXYN value.toNat x y n.toNat) :
    WordsDecodeTo 0xF000 value fun op => f (fieldX op) (fieldY op) (fieldN op) := by
  refine wordsDecodeTo_of_encode fun op hop => (hf _ _ _).trans (encodeXYN_fields ?_ (fieldN op).isLt ?_)
  · rw [← hop, and_F000_toNat, fieldN_toNat]
  · rw [← hop, and_F000_toNat]; omega

theorem wordsDecodeTo_XKK {value : Word} {f : Reg → Instr} (hf : ∀ x, encode (f x) = encodeXKK value.toNat x) :
    WordsDecodeTo 0xF0FF value fun op => f (fieldX op) :=
  wordsDecodeTo_of_encode fun op hop => (hf _).trans (encodeXKK_fields (by rw [← and_F0FF_toNat, hop]))

/-! The 34 rows, in the map's order (R69). -/

theorem wordsDecodeTo_cls : WordsDecodeTo 0xFFFF 0x00E0 fun _ => .cls := wordsDecodeTo_fixed rfl
theorem wordsDecodeTo_ret : WordsDecodeTo 0xFFFF 0x00EE fun _ => .ret := wordsDecodeTo_fixed rfl
theorem wordsDecodeTo_jp : WordsDecodeTo 0xF000 0x1000 fun op => .jp (fieldNNN op) := wordsDecodeTo_NNN fun _ => rfl
theorem wordsDecodeTo_call : WordsDecodeTo 0xF000 0x2000 fun op => .call (fieldNNN op) := wordsDecodeTo_NNN fun _ => rfl
theorem wordsDecodeTo_seByte : WordsDecodeTo 0xF000 0x3000 fun op => .seByte (fieldX op) (fieldNN op) :=
  wordsDecodeTo_XNN fun _ _ => rfl
theorem wordsDecodeTo_sneByte : WordsDecodeTo 0xF000 0x4000 fun op => .sneByte (fieldX op) (fieldNN op) :=
  wordsDecodeTo_XNN fun _ _ => rfl
theorem wordsDecodeTo_seReg : WordsDecodeTo 0xF00F 0x5000 fun op => .seReg (fieldX op) (fieldY op) :=
  wordsDecodeTo_XY fun _ _ => rfl
theorem wordsDecodeTo_ldByte : WordsDecodeTo 0xF000 0x6000 fun op => .ldByte (fieldX op) (fieldNN op) :=
  wordsDecodeTo_XNN fun _ _ => rfl
theorem wordsDecodeTo_addByte : WordsDecodeTo 0xF000 0x7000 fun op => .addByte (fieldX op) (fieldNN op) :=
  wordsDecodeTo_XNN fun _ _ => rfl
theorem wordsDecodeTo_ldReg : WordsDecodeTo 0xF00F 0x8000 fun op => .ldReg (fieldX op) (fieldY op) :=
  wordsDecodeTo_XY fun _ _ => rfl
theorem wordsDecodeTo_orReg : WordsDecodeTo 0xF00F 0x8001 fun op => .orReg (fieldX op) (fieldY op) :=
  wordsDecodeTo_XY fun _ _ => rfl
theorem wordsDecodeTo_andReg : WordsDecodeTo 0xF00F 0x8002 fun op => .andReg (fieldX op) (fieldY op) :=
  wordsDecodeTo_XY fun _ _ => rfl
theorem wordsDecodeTo_xorReg : WordsDecodeTo 0xF00F 0x8003 fun op => .xorReg (fieldX op) (fieldY op) :=
  wordsDecodeTo_XY fun _ _ => rfl
theorem wordsDecodeTo_addReg : WordsDecodeTo 0xF00F 0x8004 fun op => .addReg (fieldX op) (fieldY op) :=
  wordsDecodeTo_XY fun _ _ => rfl
theorem wordsDecodeTo_subReg : WordsDecodeTo 0xF00F 0x8005 fun op => .subReg (fieldX op) (fieldY op) :=
  wordsDecodeTo_XY fun _ _ => rfl
theorem wordsDecodeTo_shrReg : WordsDecodeTo 0xF00F 0x8006 fun op => .shrReg (fieldX op) (fieldY op) :=
  wordsDecodeTo_XY fun _ _ => rfl
theorem wordsDecodeTo_subnReg : WordsDecodeTo 0xF00F 0x8007 fun op => .subnReg (fieldX op) (fieldY op) :=
  wordsDecodeTo_XY fun _ _ => rfl
theorem wordsDecodeTo_shlReg : WordsDecodeTo 0xF00F 0x800E fun op => .shlReg (fieldX op) (fieldY op) :=
  wordsDecodeTo_XY fun _ _ => rfl
theorem wordsDecodeTo_sneReg : WordsDecodeTo 0xF00F 0x9000 fun op => .sneReg (fieldX op) (fieldY op) :=
  wordsDecodeTo_XY fun _ _ => rfl
theorem wordsDecodeTo_ldIndex : WordsDecodeTo 0xF000 0xA000 fun op => .ldIndex (fieldNNN op) :=
  wordsDecodeTo_NNN fun _ => rfl
theorem wordsDecodeTo_jpV0 : WordsDecodeTo 0xF000 0xB000 fun op => .jpV0 (fieldNNN op) := wordsDecodeTo_NNN fun _ => rfl
theorem wordsDecodeTo_rnd : WordsDecodeTo 0xF000 0xC000 fun op => .rnd (fieldX op) (fieldNN op) :=
  wordsDecodeTo_XNN fun _ _ => rfl
theorem wordsDecodeTo_drw : WordsDecodeTo 0xF000 0xD000 fun op => .drw (fieldX op) (fieldY op) (fieldN op) :=
  wordsDecodeTo_XYN fun _ _ _ => rfl
theorem wordsDecodeTo_skp : WordsDecodeTo 0xF0FF 0xE09E fun op => .skp (fieldX op) := wordsDecodeTo_XKK fun _ => rfl
theorem wordsDecodeTo_sknp : WordsDecodeTo 0xF0FF 0xE0A1 fun op => .sknp (fieldX op) := wordsDecodeTo_XKK fun _ => rfl
theorem wordsDecodeTo_ldRegDelay : WordsDecodeTo 0xF0FF 0xF007 fun op => .ldRegDelay (fieldX op) :=
  wordsDecodeTo_XKK fun _ => rfl
theorem wordsDecodeTo_ldRegKey : WordsDecodeTo 0xF0FF 0xF00A fun op => .ldRegKey (fieldX op) :=
  wordsDecodeTo_XKK fun _ => rfl
theorem wordsDecodeTo_ldDelayReg : WordsDecodeTo 0xF0FF 0xF015 fun op => .ldDelayReg (fieldX op) :=
  wordsDecodeTo_XKK fun _ => rfl
theorem wordsDecodeTo_ldSoundReg : WordsDecodeTo 0xF0FF 0xF018 fun op => .ldSoundReg (fieldX op) :=
  wordsDecodeTo_XKK fun _ => rfl
theorem wordsDecodeTo_addIndex : WordsDecodeTo 0xF0FF 0xF01E fun op => .addIndex (fieldX op) :=
  wordsDecodeTo_XKK fun _ => rfl
theorem wordsDecodeTo_ldGlyph : WordsDecodeTo 0xF0FF 0xF029 fun op => .ldGlyph (fieldX op) :=
  wordsDecodeTo_XKK fun _ => rfl
theorem wordsDecodeTo_ldBcd : WordsDecodeTo 0xF0FF 0xF033 fun op => .ldBcd (fieldX op) := wordsDecodeTo_XKK fun _ => rfl
theorem wordsDecodeTo_storeRegs : WordsDecodeTo 0xF0FF 0xF055 fun op => .storeRegs (fieldX op) :=
  wordsDecodeTo_XKK fun _ => rfl
theorem wordsDecodeTo_loadRegs : WordsDecodeTo 0xF0FF 0xF065 fun op => .loadRegs (fieldX op) :=
  wordsDecodeTo_XKK fun _ => rfl

/-! ## The opcode map and the decoder -/

/-- The rows are numbered 1 to 34. -/
theorem opcodeMap_numbers : opcodeMap.map OpcodeRow.number = List.range' 1 34 := rfl

theorem row_eq_of_number_eq {row row' : OpcodeRow} (h : row ∈ opcodeMap) (h' : row' ∈ opcodeMap)
    (same : row.number = row'.number) : row = row' :=
  List.inj_on_of_nodup_map (opcodeMap_numbers ▸ List.nodup_range') h h' same

/-- The decoder reads every word the row accepts as an instruction of the row. -/
def RowDecodes (row : OpcodeRow) : Prop :=
  ∀ op : Word, op &&& row.mask = row.value → ∃ i, decodeWord op = .ok i ∧ i.rowNumber = row.number

theorem RowDecodes.of_words {row : OpcodeRow} {f : Word → Instr} (words : WordsDecodeTo row.mask row.value f)
    (number : ∀ op, (f op).rowNumber = row.number := by intro op; rfl) : RowDecodes row :=
  fun op accepted => ⟨f op, words op accepted, number op⟩

theorem rowDecodes_of_mem_opcodeMap : ∀ row ∈ opcodeMap, RowDecodes row := by
  simp only [opcodeMap, List.cons_append, List.nil_append, List.forall_mem_cons]
  exact ⟨.of_words wordsDecodeTo_cls, .of_words wordsDecodeTo_ret, .of_words wordsDecodeTo_jp,
    .of_words wordsDecodeTo_call, .of_words wordsDecodeTo_seByte, .of_words wordsDecodeTo_sneByte,
    .of_words wordsDecodeTo_seReg, .of_words wordsDecodeTo_ldByte, .of_words wordsDecodeTo_addByte,
    .of_words wordsDecodeTo_ldReg, .of_words wordsDecodeTo_orReg, .of_words wordsDecodeTo_andReg,
    .of_words wordsDecodeTo_xorReg, .of_words wordsDecodeTo_addReg, .of_words wordsDecodeTo_subReg,
    .of_words wordsDecodeTo_shrReg, .of_words wordsDecodeTo_subnReg, .of_words wordsDecodeTo_shlReg,
    .of_words wordsDecodeTo_sneReg, .of_words wordsDecodeTo_ldIndex, .of_words wordsDecodeTo_jpV0,
    .of_words wordsDecodeTo_rnd, .of_words wordsDecodeTo_drw, .of_words wordsDecodeTo_skp, .of_words wordsDecodeTo_sknp,
    .of_words wordsDecodeTo_ldRegDelay, .of_words wordsDecodeTo_ldRegKey, .of_words wordsDecodeTo_ldDelayReg,
    .of_words wordsDecodeTo_ldSoundReg, .of_words wordsDecodeTo_addIndex, .of_words wordsDecodeTo_ldGlyph,
    .of_words wordsDecodeTo_ldBcd, .of_words wordsDecodeTo_storeRegs, .of_words wordsDecodeTo_loadRegs,
    List.forall_mem_nil _⟩

open Laws.EncodesInItsRow in
/-- Every instruction's word lies in the instruction's own row. -/
theorem encodesInItsRow (i : Instr) : Laws.EncodesInItsRow.Statement i := by
  cases i
  exacts [cls, ret, jp _, call _, seByte _ _, sneByte _ _, seReg _ _, ldByte _ _, addByte _ _, ldReg _ _,
    orReg _ _, andReg _ _, xorReg _ _, addReg _ _, subReg _ _, shrReg _ _, subnReg _ _, shlReg _ _, sneReg _ _,
    ldIndex _, jpV0 _, rnd _ _, drw _ _ _, skp _, sknp _, ldRegDelay _, ldRegKey _, ldDelayReg _, ldSoundReg _,
    addIndex _, ldGlyph _, ldBcd _, storeRegs _, loadRegs _]

/-- An accepted word is the word of its instruction (O4), and that one lies in the instruction's row. -/
theorem row_accepts_of_decodeWord {op : Word} {i : Instr} {row : OpcodeRow} (mem : row ∈ opcodeMap)
    (h : decodeWord op = .ok i) (number : i.rowNumber = row.number) : op &&& row.mask = row.value := by
  obtain ⟨own, ownMem, ownNumber, accepts⟩ := encodesInItsRow i
  obtain rfl : own = row := row_eq_of_number_eq ownMem mem (ownNumber.trans number)
  rwa [encodeOfDecodeIsTheWord op i h] at accepts

/-- Settles O5: a row's words are its instruction's, and two rows of one word have the number of one instruction. -/
theorem opcodeMapRowsDecideTheDecoder : Obligations.OpcodeMapRowsDecideTheDecoder := by
  refine ⟨rfl, fun op row mem => ⟨rowDecodes_of_mem_opcodeMap row mem op, ?_⟩, ?_⟩
  · rintro ⟨i, h, number⟩
    exact row_accepts_of_decodeWord mem h number
  · intro op row mem row' mem' accepted accepted'
    obtain ⟨i, h, number⟩ := rowDecodes_of_mem_opcodeMap row mem op accepted
    obtain ⟨i', h', number'⟩ := rowDecodes_of_mem_opcodeMap row' mem' op accepted'
    obtain rfl : i = i' := Except.ok.inj (h.symm.trans h')
    exact row_eq_of_number_eq mem mem' (number.symm.trans number')

end Sys2Proof
end

section
/-! PROOFS. The cycle engine (40_cycle_engine.md R80 to R90): what `step` and `cycle` give in each branch of the cycle, that
no instruction is refused, and what a completed cycle does to the timers. -/

namespace Sys2Proof.Machine

/-! ## The branches of a cycle -/

section
variable {s t : State} {op : Word} {i : Instr} {e : DecodeError} {f : Fault}

theorem step_of_fetch_error (fetched : fetch s = .error f) : step s = .fault f := by
  simp only [step, fetched, raise]

theorem step_of_decoded (fetched : fetch s = .ok op) (decoded : decodeWord op = .ok i) :
    step s = thenTick (exec i s) := by
  simp only [step, fetched, decoded]

theorem step_of_unknown (fetched : fetch s = .ok op) (rejected : decodeWord op = .error e) :
    step s = .next (tick (advance s)) := by
  simp only [step, fetched, rejected, thenTick, skipUnknown]

theorem completionReport_of_decoded (fetched : fetch s = .ok op) (decoded : decodeWord op = .ok i) :
    completionReport s = if waiting i s then .waitKey else .ok := by
  simp only [completionReport, fetched, decoded]

theorem completionReport_of_unknown (fetched : fetch s = .ok op) (rejected : decodeWord op = .error e) :
    completionReport s = .unknownOpcode op := by
  simp only [completionReport, fetched, rejected]

theorem cycle_of_next (h : step s = .next t) : cycle s = .ok (t, completionReport s) := by
  simp only [cycle, h]

theorem cycle_of_fault (h : step s = .fault f) : cycle s = .ok (s, .fault f) := by
  simp only [cycle, h]

/-- The one instruction that waits is FX0A, while no key is pressed (R163). -/
theorem waiting_iff : waiting i s = true ↔ (∃ x, i = .ldRegKey x) ∧ ∀ k, keyDown k s = false := by
  cases i with
  | ldRegKey x => simp [waiting, lowestKey_none]
  | _ => simp [waiting]

/-- A completed cycle reports no fault: its fetch gave a word. -/
theorem completionReport_ne_fault (h : step s = .next t) (f : Fault) : completionReport s ≠ .fault f := by
  obtain ⟨op, fetched, ⟨i, -, decoded, -, -⟩ | ⟨e, rejected, -⟩⟩ := step_next_cases h
  · rw [completionReport_of_decoded fetched decoded]
    split <;> nofun
  · rw [completionReport_of_unknown fetched rejected]
    nofun

end

/-- Settles O9: the fetch faults, and nothing after it runs. -/
theorem fetchPastTheEndFaults : Obligations.FetchPastTheEndFaults := by
  intro s past
  have faults := step_of_fetch_error (fetch_error past)
  exact ⟨faults, cycle_of_fault faults⟩

/-- Settles O8: the word that R84 describes is the fetched one, and the rest of the cycle is `advance` and `tick`. -/
theorem unknownOpcodeIsSkippedAndReported : Obligations.UnknownOpcodeIsSkippedAndReported := by
  intro s op e inRange word rejected
  have fetched : fetch s = .ok op :=
    fetch_ok.2 ⟨inRange, BitVec.eq_of_toNat_eq (word.trans (wordOfBytes_toNat _ _).symm)⟩
  have completes := step_of_unknown fetched rejected
  refine ⟨tick (advance s), completes, ?_, rfl, countDown_toNat _, countDown_toNat _, ?_⟩
  · rw [cycle_of_next completes, completionReport_of_unknown fetched rejected]
  · exact changesOnly_trans (changesOnly_advance s (.inl rfl)) (changesOnly_tick _ (.inr (.inl rfl)) (.inr (.inr rfl)))

/-- Two bytes decode to an instruction exactly when the word they form does (R44, R60). -/
theorem decode_pair_ok {hi lo : Byte} {i : Instr} :
    decode [hi, lo] = .ok (i, []) ↔ decodeWord (wordOfBytes hi lo) = .ok i := by
  cases h : decodeWord (wordOfBytes hi lo) <;> simp [decode, h]

/-- Settles O7: `step` is the execute step of the fetched instruction, then `tick`. -/
theorem stepRunsTheDecodedInstruction : Obligations.StepRunsTheDecodedInstruction := by
  intro s i inRange bytes
  have fetched := fetch_ok.2 ⟨inRange, rfl⟩
  have decoded := decode_pair_ok.1 bytes
  have runs := step_of_decoded fetched decoded
  refine ⟨fun t ht => ?_, fun f hf => ?_⟩
  · have completes : step s = .next (tick t) := runs.trans (congrArg thenTick ht)
    have report := cycle_of_next completes
    rw [completionReport_of_decoded fetched decoded] at report
    refine ⟨tick t, completes, countDown_toNat _, countDown_toNat _, rfl,
      changesOnly_tick t (.inl rfl) (.inr rfl), fun waits => ?_, fun runsOn => ?_⟩
    · rwa [if_pos (waiting_iff.2 waits)] at report
    · rwa [if_neg fun w => runsOn (waiting_iff.1 w)] at report
  · have faults : step s = .fault f := runs.trans (congrArg thenTick hf)
    exact ⟨faults, cycle_of_fault faults⟩

/-! ## No cycle is refused -/

/-- Every instruction has a meaning in every state: it completes or faults. -/
theorem exec_ne_refused (i : Instr) (s : State) (r : Refusal) : exec i s ≠ .refused r := by
  cases i with
  | ret | call _ | skp _ | sknp _ | ldRegKey _ =>
    simp only [exec, execRet, execCall, execSkp, execSknp, skipOnKey, execLdRegKey]
    split <;> nofun
  | drw _ _ _ | ldBcd _ | storeRegs _ | loadRegs _ => exact unlessFault_refused
  | _ => nofun

theorem thenTick_refused {x : Result} {r : Refusal} : thenTick x = .refused r ↔ x = .refused r := by
  cases x <;> simp [thenTick]

theorem step_ne_refused (s : State) (r : Refusal) : step s ≠ .refused r := by
  cases fetched : fetch s with
  | error f => rw [step_of_fetch_error fetched]; nofun
  | ok op =>
    cases decoded : decodeWord op with
    | ok i =>
      rw [step_of_decoded fetched decoded]
      exact fun h => exec_ne_refused i s r (thenTick_refused.1 h)
    | error e =>
      rw [step_of_unknown fetched decoded]
      nofun

/-- Settles O10, by the three outcomes of `step`: the first reports no fault and the last is impossible. -/
theorem everyCycleHasOneOutcomeAndFaultsAreExact : Obligations.EveryCycleHasOneOutcomeAndFaultsAreExact := by
  intro s
  cases h : step s with
  | next t =>
    have noFault := completionReport_ne_fault h
    refine ⟨t, completionReport s, cycle_of_next h, fun f => ⟨fun e => absurd e (noFault f), nofun⟩, ?_, fun _ => rfl⟩
    exact fun ⟨f, e⟩ => absurd e (noFault f)
  | fault f =>
    refine ⟨s, .fault f, cycle_of_fault h, fun g => ?_, fun _ => rfl, fun noFault => absurd rfl (noFault f)⟩
    simp only [CycleOutcome.fault.injEq, Host.Outcome.fault.injEq]
  | refused r => exact absurd h (step_ne_refused s r)

/-! ## The timers over a completed cycle -/

section
variable {i : Instr} {s t : State}

theorem exec_delayTimer_of_ne (h : exec i s = .next t) (other : ∀ x, i ≠ .ldDelayReg x) :
    t.delayTimer = s.delayTimer := exec_changesOnly h .delayTimer fun ⟨x, e⟩ => other x e

theorem exec_soundTimer_of_ne (h : exec i s = .next t) (other : ∀ x, i ≠ .ldSoundReg x) :
    t.soundTimer = s.soundTimer := exec_changesOnly h .soundTimer fun ⟨x, e⟩ => other x e

theorem exec_ldDelayReg_delayTimer {x : Reg} (h : exec (.ldDelayReg x) s = .next t) : t.delayTimer = reg x s := by
  cases h; rfl

theorem exec_ldSoundReg_soundTimer {x : Reg} (h : exec (.ldSoundReg x) s = .next t) : t.soundTimer = reg x s := by
  cases h; rfl

end

/-- Settles O11: the tick counts down what the execute step left, and only FX15 and FX18 load a timer. -/
theorem timersTickOncePerCompletedCycle : Obligations.TimersTickOncePerCompletedCycle := by
  intro s t op fetched h
  obtain ⟨op', fetched', run⟩ := step_next_cases h
  obtain rfl : op = op' := Except.ok.inj (fetched.symm.trans fetched')
  obtain ⟨i, u, decoded, hu, rfl⟩ | ⟨e, rejected, rfl⟩ := run
  · rw [decoded, tick_delayTimer, tick_soundTimer, countDown_toNat, countDown_toNat]
    constructor
    · split
      next x eq =>
        obtain rfl := Except.ok.inj eq
        rw [exec_ldDelayReg_delayTimer hu]
      next other => rw [exec_delayTimer_of_ne hu fun x eq => other x (congrArg _ eq)]
    · split
      next x eq =>
        obtain rfl := Except.ok.inj eq
        rw [exec_ldSoundReg_soundTimer hu]
      next other => rw [exec_soundTimer_of_ne hu fun x eq => other x (congrArg _ eq)]
  · rw [rejected]
    exact ⟨countDown_toNat _, countDown_toNat _⟩

end Sys2Proof.Machine
end

section
/-! PROOFS. Control transfer (41_control_transfer.md R100 to R104): the jumps; what a push and a pop leave in `sp` and in
the entries, from which a call, a return and the pair of them follow. -/

namespace Sys2Proof.Machine

section
variable {w : Word} {nnn : Addr} {s t u : State}

/-! ## The stack under a push and a pop -/

theorem exists_push (w : Word) (room : s.sp.val < 16) : ∃ t, push w s = some t := ⟨_, push_some.2 ⟨room, rfl⟩⟩

theorem lt_of_push (h : push w s = some t) : s.sp.val < 16 := (push_some.1 h).1

theorem push_sp (h : push w s = some t) : t.sp.val = s.sp.val + 1 := by
  obtain ⟨_, rfl⟩ := push_some.1 h
  rfl

theorem push_top (h : push w s = some t) (room : s.sp.val < 16) : t.stack[s.sp.val] = w := by
  obtain ⟨_, rfl⟩ := push_some.1 h
  exact Vector.getElem_set_self room

/-- A pop, told by the count `k` of entries it leaves: it gives entry `k` (R100). -/
theorem exists_pop {k : Nat} (used : s.sp.val = k + 1) (hk : k < 16) :
    ∃ t, pop s = some (s.stack[k], t) ∧ t.sp.val = k := by
  have top : s.sp.val - 1 = k := by omega
  refine ⟨_, pop_some.2 ⟨by omega, ?_, rfl⟩, top⟩
  simp only [top]

/-! ## Call and return -/

theorem exec_call_of_push (h : push (s.pc + 2) s = some u) : exec (.call nnn) s = .next (setPc (zeroExtend nnn) u) :=
  execCall_next.2 ⟨u, h, rfl⟩

theorem exec_call_full (full : s.sp.val = 16) : exec (.call nnn) s = .fault .stackOverflow := by
  simp only [exec, execCall, push_none.2 full, raise]

theorem exec_ret_of_pop (h : pop s = some (w, u)) : exec .ret s = .next (setPc w u) := execRet_next.2 ⟨w, u, h, rfl⟩

theorem exec_ret_empty (empty : s.sp.val = 0) : exec .ret s = .fault .stackUnderflow := by
  simp only [exec, execRet, pop_none.2 empty, raise]

/-- A call completes exactly when an entry is free (R102, D3). -/
theorem exec_call_completes_iff : (∃ t, exec (.call nnn) s = .next t) ↔ s.sp.val < 16 := by
  constructor
  · rintro ⟨t, h⟩
    obtain ⟨u, pushed, -⟩ := execCall_next.1 h
    exact lt_of_push pushed
  · intro room
    obtain ⟨u, pushed⟩ := exists_push (s.pc + 2) room
    exact ⟨_, exec_call_of_push pushed⟩

end

/-- Settles O16: the entry the return pops is the one the call pushed. -/
theorem callThenReturnComesBack : Obligations.CallThenReturnComesBack := by
  intro nnn s
  refine ⟨exec_call_completes_iff, fun t u called usp kept => ?_⟩
  obtain ⟨pushed, hpush, rfl⟩ := execCall_next.1 called
  have room := lt_of_push hpush
  have top : u.stack[s.sp.val] = s.pc + 2 := (kept room).trans (push_top hpush room)
  obtain ⟨popped, hpop, hsp⟩ := exists_pop usp room
  exact ⟨_, exec_ret_of_pop hpop, top, Fin.ext hsp⟩

/-- Settles O13: both targets fit in 16 bits, so `pc` gets them unreduced. -/
theorem jumpsGoToTheirTargets : Obligations.JumpsGoToTheirTargets :=
  ⟨wordsDecodeTo_jp, wordsDecodeTo_jpV0, fun nnn s =>
    ⟨⟨_, rfl, zeroExtend_toNat nnn, changesOnly_setPc _ s rfl⟩,
      ⟨_, rfl, offsetTarget_toNat nnn (reg 0 s), changesOnly_setPc _ s rfl⟩⟩⟩

/-- Settles O14: the push gives the entry and `sp`, and its frame the rest; without room it fails. -/
theorem callPushesTheNextAddress : Obligations.CallPushesTheNextAddress := by
  refine ⟨wordsDecodeTo_call, fun nnn s => ⟨fun room => ?_, exec_call_full⟩⟩
  obtain ⟨u, pushed⟩ := exists_push (s.pc + 2) room
  have top := push_top pushed room
  have sp := push_sp pushed
  refine ⟨_, exec_call_of_push pushed, top, sp, zeroExtend_toNat nnn, ?_⟩
  exact changesOnly_trans
    (changesOnly_push pushed (.inr (.inl rfl)) fun _ atSp => .inl (congrArg Place.stack (Fin.ext atSp)))
    (changesOnly_setPc _ u (.inr (.inr rfl)))

/-- Settles O15: the pop gives the entry and `sp`, and its frame keeps every entry; on an empty stack it fails. -/
theorem returnPopsTheAddress : Obligations.ReturnPopsTheAddress := by
  refine ⟨wordsDecodeTo_ret, fun s => ⟨fun used => ?_, exec_ret_empty⟩⟩
  have bound := s.sp.isLt
  obtain ⟨u, popped, hsp⟩ := exists_pop (s := s) (k := s.sp.val - 1) (by omega) (by omega)
  refine ⟨_, exec_ret_of_pop popped, rfl, hsp, ?_⟩
  exact changesOnly_trans (changesOnly_pop popped (.inl rfl)) (changesOnly_setPc _ u (.inr rfl))

end Sys2Proof.Machine
end

section
/-! PROOFS. Conditional skips (42_skips.md R110 to R116): every skip completes as `skipIf` of its condition, so the rule of
R116 is proved once and each instruction only names its condition; a key skip has one before that, the range of its key
index. -/

namespace Sys2Proof.Machine

section
variable {s : State} {x : Reg} {r : Result}

/-- R116: what ends in `skipIf` completes, moves `pc` by 4 or by 2 as its condition says, and changes nothing else. -/
theorem completes_of_eq_skipIf {c : Bool} {p : Prop} [Decidable p] (ends : r = .next (skipIf c s)) (cond : c = true ↔ p) :
    ∃ t, r = .next t ∧ t.pc = (if p then s.pc + 4 else s.pc + 2) ∧ ChangesOnly (fun q => q = .pc) s t :=
  ⟨skipIf c s, ends, (skipIf_pc c s).trans (if_congr cond rfl rfl), changesOnly_skipIf c s rfl⟩

/-- A key index in range names its key (R114, R115). -/
theorem skipOnKey_of_le (wanted : Bool) (inRange : (reg x s).toNat ≤ 15) :
    skipOnKey x wanted s = .next (skipIf (keyDown (Fin.ofNat 16 (reg x s).toNat) s == wanted) s) := by
  have isKey : (reg x s).toNat < 16 := Nat.lt_succ_of_le inRange
  have named : Fin.ofNat 16 (reg x s).toNat = ⟨(reg x s).toNat, isKey⟩ := Fin.ext (Nat.mod_eq_of_lt isKey)
  exact skipOnKey_next.2 ⟨isKey, by rw [named]⟩

/-- A key index above 15 faults, whichever key state is wanted (D12). -/
theorem skipOnKey_of_gt (wanted : Bool) (outside : (reg x s).toNat > 15) :
    skipOnKey x wanted s = .fault (.keyIndexOutOfRange (reg x s)) :=
  dif_neg (Nat.not_lt.2 outside)

end

/-- Settles O17: each of the four is `skipIf` of its own comparison. -/
theorem byteSkipsMoveOnlyPc : Obligations.ByteSkipsMoveOnlyPc := by
  refine ⟨wordsDecodeTo_seByte, wordsDecodeTo_sneByte, wordsDecodeTo_seReg, wordsDecodeTo_sneReg, fun x y nn s => ?_⟩
  exact ⟨completes_of_eq_skipIf rfl beq_iff_eq, completes_of_eq_skipIf rfl bne_iff_ne,
    completes_of_eq_skipIf rfl beq_iff_eq, completes_of_eq_skipIf rfl bne_iff_ne⟩

/-- Settles O18: both are `skipOnKey`, with the pressed and the released state as the wanted one. -/
theorem keySkipsTestOneKey : Obligations.KeySkipsTestOneKey := by
  refine ⟨wordsDecodeTo_skp, wordsDecodeTo_sknp, fun x s => ⟨fun inRange => ?_, fun outside => ?_⟩⟩
  · exact ⟨completes_of_eq_skipIf (skipOnKey_of_le true inRange) beq_iff_eq,
      completes_of_eq_skipIf (skipOnKey_of_le false inRange) beq_iff_eq⟩
  · exact ⟨skipOnKey_of_gt true outside, skipOnKey_of_gt false outside⟩

end Sys2Proof.Machine
end

section
/-! PROOFS. Register load and ALU (43_load_and_alu.md R120 to R133): the instructions end in one of two shapes, a register
write or a register write and the flag, so what each shape leaves is proved once and an instruction only gives its numbers;
the integer identities of R131 follow from the result and the flag. -/

namespace Sys2Proof.Machine

/-! ## What the two shapes leave -/

theorem flagByte_decide_toNat (p : Prop) [Decidable p] : (flagByte (decide p)).toNat = if p then 1 else 0 := by
  by_cases hp : p <;> simp [flagByte, hp]

/-- The bit 8XY6 shifts out, as the number VF gets (R128). -/
theorem flagByte_shiftedOutRight_toNat (b : Byte) : (flagByte (shiftedOutRight b)).toNat = b.toNat % 2 := by
  rw [shiftedOutRight_iff, flagByte_decide_toNat]
  split_ifs <;> omega

/-- The bit 8XYE shifts out, as the number VF gets (R130). -/
theorem flagByte_shiftedOutLeft_toNat (b : Byte) : (flagByte (shiftedOutLeft b)).toNat = b.toNat / 128 := by
  rw [shiftedOutLeft_iff, flagByte_decide_toNat]
  split_ifs <;> omega

section
variable {x : Reg} {b : Byte} {f : Bool} {s : State} {r : Result}

theorem reg_writeReg_advance : reg x (advance (writeReg x b s)) = b := by
  rw [reg_advance, reg_writeReg_same]

/-- The flag is written last, so VF holds it whatever the destination (R85, R132). -/
theorem reg_vf_writeWithFlag : reg vf (writeWithFlag x b f s) = flagByte f := by
  rw [writeWithFlag, reg_advance, reg_writeFlag, if_pos rfl]

theorem reg_writeWithFlag_of_ne (hx : x ≠ vf) : reg x (writeWithFlag x b f s) = b := by
  rw [writeWithFlag, reg_advance, reg_writeFlag, if_neg hx, reg_writeReg_same]

/-- What ends in one register write completes, leaves a value with the property `P` of the written one, moves `pc` by 2
and changes nothing else. -/
theorem completes_of_eq_writeReg (P : Byte → Prop) (ends : r = .next (advance (writeReg x b s))) (value : P b) :
    ∃ t, r = .next t ∧ P (reg x t) ∧ t.pc = s.pc + 2 ∧ ChangesOnly (fun p => p = .reg x ∨ p = .pc) s t :=
  ⟨_, ends, reg_writeReg_advance.symm ▸ value, rfl, changesOnly_writeReg_advance x b s (.inl rfl) (.inr rfl)⟩

/-- The same with the written byte told bit by bit. -/
theorem completes_of_eq_writeReg_bits {bits : Nat → Bool} (ends : r = .next (advance (writeReg x b s)))
    (value : ∀ k, b.getLsbD k = bits k) :
    ∃ t, r = .next t ∧ (∀ k < 8, (reg x t).getLsbD k = bits k) ∧ t.pc = s.pc + 2 ∧
      ChangesOnly (fun p => p = .reg x ∨ p = .pc) s t :=
  completes_of_eq_writeReg (fun c => ∀ k < 8, c.getLsbD k = bits k) ends fun k _ => value k

/-- What ends in a register write and the flag completes with both numbers, moves `pc` by 2 and changes nothing else;
with `V[15]` as the destination only the flag remains (R132). -/
theorem completes_of_eq_writeWithFlag {m n : Nat} (ends : r = .next (writeWithFlag x b f s)) (value : b.toNat = m)
    (flag : (flagByte f).toNat = n) :
    ∃ t, r = .next t ∧ (x ≠ vf → (reg x t).toNat = m) ∧ (reg vf t).toNat = n ∧ t.pc = s.pc + 2 ∧
      ChangesOnly (fun p => p = .reg x ∨ p = .reg vf ∨ p = .pc) s t := by
  refine ⟨_, ends, fun hx => ?_, ?_, rfl, changesOnly_writeWithFlag x b f s (.inl rfl) (.inr (.inl rfl)) (.inr (.inr rfl))⟩
  · rw [reg_writeWithFlag_of_ne hx, value]
  · rw [reg_vf_writeWithFlag, flag]

end

/-! ## The instructions -/

/-- Settles O19: both are one register write, of NN and of the sum. -/
theorem immediateLoadAndAdd : Obligations.ImmediateLoadAndAdd :=
  ⟨wordsDecodeTo_ldByte, wordsDecodeTo_addByte, fun _ nn _ =>
    ⟨completes_of_eq_writeReg (· = nn) rfl rfl, completes_of_eq_writeReg (·.toNat = _) rfl (sumByte_toNat _ nn)⟩⟩

/-- Settles O20: each is one register write, of `V[Y]` or of the bitwise operation on the two registers. -/
theorem assignAndLogicWriteOnlyTheirRegister : Obligations.AssignAndLogicWriteOnlyTheirRegister := by
  refine ⟨wordsDecodeTo_ldReg, wordsDecodeTo_orReg, wordsDecodeTo_andReg, wordsDecodeTo_xorReg, fun x y s => ?_⟩
  exact ⟨completes_of_eq_writeReg (· = reg y s) rfl rfl,
    completes_of_eq_writeReg_bits rfl fun _ => BitVec.getLsbD_or,
    completes_of_eq_writeReg_bits rfl fun _ => BitVec.getLsbD_and,
    completes_of_eq_writeReg_bits rfl fun _ => BitVec.getLsbD_xor⟩

/-- Settles O21: the result is the sum, the flag its carry. -/
theorem addSetsVfToTheCarry : Obligations.AddSetsVfToTheCarry :=
  ⟨wordsDecodeTo_addReg, fun _ _ _ => completes_of_eq_writeWithFlag rfl (sumByte_toNat _ _) (flagByte_decide_toNat _)⟩

/-- Settles O22: the result is the difference, the flag its not-borrow, with the operands in the two orders. -/
theorem subtractionsSetVfToNotBorrow : Obligations.SubtractionsSetVfToNotBorrow :=
  ⟨wordsDecodeTo_subReg, wordsDecodeTo_subnReg, fun _ _ _ =>
    ⟨completes_of_eq_writeWithFlag rfl (diffByte_toNat _ _) (flagByte_decide_toNat _),
      completes_of_eq_writeWithFlag rfl (diffByte_toNat _ _) (flagByte_decide_toNat _)⟩⟩

/-- Settles O23: the result is the half or the double of `V[X]`, the flag the bit that leaves it. -/
theorem shiftsMoveVxByOneInPlace : Obligations.ShiftsMoveVxByOneInPlace :=
  ⟨wordsDecodeTo_shrReg, wordsDecodeTo_shlReg, fun _ _ _ =>
    ⟨completes_of_eq_writeWithFlag rfl (halfByte_toNat _) (flagByte_shiftedOutRight_toNat _),
      completes_of_eq_writeWithFlag rfl (doubleByte_toNat _) (flagByte_shiftedOutLeft_toNat _)⟩⟩

/-- A masked byte has no bit outside its mask (R133). -/
theorem and_and_not_self (b mask : Byte) : b &&& mask &&& ~~~mask = 0 := by
  rw [BitVec.and_assoc, BitVec.and_not_self]
  exact BitVec.and_zero

/-- Settles O26: the draw moves only the random source, and what is written is the masked byte. -/
theorem randomByteIsMasked : Obligations.RandomByteIsMasked := by
  refine ⟨wordsDecodeTo_rnd, fun x nn s => ⟨_, rfl, reg_writeReg_advance, ?_, rfl, rfl, rfl, ?_⟩⟩
  · rw [reg_writeReg_advance, and_and_not_self]
  · exact changesOnly_trans (changesOnly_drawRandom s (.inr (.inl rfl)))
      (changesOnly_writeReg_advance x _ _ (.inl rfl) (.inr (.inr rfl)))

/-! ## Exact arithmetic -/

/-- What is known of the state some completion leaves is known of the state every completion leaves. -/
theorem of_completes {r : Result} {P : State → Prop} {t : State} (completes : ∃ u, r = .next u ∧ P u) (h : r = .next t) :
    P t := by
  obtain ⟨u, hu, holds⟩ := completes
  obtain rfl := Host.Outcome.next.inj (h.symm.trans hu)
  exact holds

section
variable {a b d f : Byte}

/-- The carry weighs 256 (R126, R131). -/
theorem add_exact_of_carry (sum : d.toNat = (a.toNat + b.toNat) % 256)
    (carry : f.toNat = if a.toNat + b.toNat > 255 then 1 else 0) : (a.toNat : Int) + b.toNat = d.toNat + 256 * f.toNat := by
  split_ifs at carry <;> omega

/-- A borrow, which VF = 0 tells, weighs 256 (R127, R129, R131). -/
theorem sub_exact_of_notBorrow (difference : d.toNat = (a.toNat + 256 - b.toNat) % 256)
    (notBorrow : f.toNat = if a.toNat ≥ b.toNat then 1 else 0) :
    (a.toNat : Int) - b.toNat = d.toNat - 256 * (1 - f.toNat) := by
  split_ifs at notBorrow <;> omega

end

/-- Settles O24, from the result and the flag that O21 and O22 give. -/
theorem arithmeticIsExactOverTheIntegers : Obligations.ArithmeticIsExactOverTheIntegers := by
  intro x y s t hx
  have add := addSetsVfToTheCarry.2 x y s
  obtain ⟨sub, subn⟩ := subtractionsSetVfToNotBorrow.2.2 x y s
  refine ⟨fun h => ?_, fun h => ?_, fun h => ?_⟩
  · obtain ⟨sum, carry, -⟩ := of_completes add h
    exact add_exact_of_carry (sum hx) carry
  · obtain ⟨difference, notBorrow, -⟩ := of_completes sub h
    exact sub_exact_of_notBorrow (difference hx) notBorrow
  · obtain ⟨difference, notBorrow, -⟩ := of_completes subn h
    exact sub_exact_of_notBorrow (difference hx) notBorrow

end Sys2Proof.Machine
end

section
/-! PROOFS. Index register and memory (44_index_and_memory.md R140 to R147): three instructions end in one write of `I`;
three move bytes behind a check of the range, whose outcomes are told once for a store and once for a load, so that an
instruction only says what it leaves when it completes. -/

namespace Sys2Proof.Machine

/-! ## The write of `I` -/

section
variable {s u : State} {w : Word} {r : Result}

theorem changesOnly_setIndex_advance {written : Place → Prop} (w : Word) (s : State) (hindex : written .index)
    (hpc : written .pc) : ChangesOnly written s (advance (setIndex w s)) :=
  changesOnly_trans (changesOnly_setIndex w s hindex) (changesOnly_advance _ hpc)

/-- What ends in one write of `I` completes with the number written, moves `pc` by 2 and changes nothing else. -/
theorem completes_of_eq_setIndex {n : Nat} (ends : r = .next (advance (setIndex w s))) (value : w.toNat = n) :
    ∃ t, r = .next t ∧ t.index.toNat = n ∧ t.pc = s.pc + 2 ∧ ChangesOnly (fun p => p = .index ∨ p = .pc) s t :=
  ⟨_, ends, value, rfl, changesOnly_setIndex_advance w s (.inl rfl) (.inr rfl)⟩

/-! ## The checked accesses -/

/-- A checked store completes inside 0x200 to 0xFFF, with whatever a completion implies, and faults outside, below 0x200
with PROTECT before the upper bound is looked at (R48, D5, D6). -/
theorem checkedWrite_outcomes {lo hi : Nat} {P : State → Prop} (ends : r = unlessFault (checkWrite lo hi) u)
    (completed : r = .next u → P u) :
    (0x200 ≤ lo → hi ≤ 0xFFF → ∃ t, r = .next t ∧ P t) ∧
    (lo < 0x200 → r = .fault (.memoryAddressOutOfRange .protect lo)) ∧
    (0x200 ≤ lo → hi > 0xFFF → r = .fault (.memoryAddressOutOfRange .write (max lo 0x1000))) := by
  refine ⟨fun above below => ?_, fun low => ?_, fun above past => ?_⟩
  · have completes : r = .next u := ends.trans (unlessFault_next.2 ⟨checkWrite_none.2 ⟨above, below⟩, rfl⟩)
    exact ⟨u, completes, completed completes⟩
  · rw [ends, checkWrite_protect low, unlessFault, raise]
  · rw [ends, checkWrite_write above past, unlessFault, raise]

/-- A checked load completes up to 0xFFF and faults with READ above it (R47, D5). -/
theorem checkedRead_outcomes {lo hi : Nat} {P : State → Prop} (ends : r = unlessFault (checkRead lo hi) u)
    (completed : P u) :
    (hi ≤ 0xFFF → ∃ t, r = .next t ∧ P t) ∧
    (hi > 0xFFF → r = .fault (.memoryAddressOutOfRange .read (max lo 0x1000))) := by
  refine ⟨fun below => ⟨u, ?_, completed⟩, fun past => ?_⟩
  · exact ends.trans (unlessFault_next.2 ⟨checkRead_none.2 below, rfl⟩)
  · rw [ends, checkRead_some past, unlessFault, raise]

end

section
variable {x : Reg} {s t : State}

/-! ## What a completed transfer leaves -/

/-- Byte `k` of a block stored at `I` stands at `I + k` (R45). -/
theorem readByte_effAddr_storeBytes {bytes : List Byte} {k : Nat} (hk : k < bytes.length) (u : State) :
    readByte (effAddr k s) (storeBytes (effAddr 0 s) bytes u) = bytes[k] := by
  have inside : effAddr 0 s ≤ effAddr k s ∧ effAddr k s < effAddr 0 s + bytes.length := by
    simp only [effAddr]; omega
  have offset : effAddr k s - effAddr 0 s = k := by simp only [effAddr]; omega
  rw [readByte_storeBytes, if_pos inside, offset, List.getD_eq_getElem _ _ hk]

/-- The digits FX33 stores, as numbers (R143). -/
theorem bcdDigits_toNat (b : Byte) :
    (bcdDigits b)[0].toNat = b.toNat / 100 ∧ (bcdDigits b)[1].toNat = b.toNat / 10 % 10 ∧
      (bcdDigits b)[2].toNat = b.toNat % 10 := by
  have bound := b.isLt
  exact ⟨Nat.mod_eq_of_lt (by omega), Nat.mod_eq_of_lt (by omega), Nat.mod_eq_of_lt (by omega)⟩

/-- A completed FX33 leaves hundreds, tens and ones of `V[X]` at `I`, `I + 1` and `I + 2` (R143). -/
theorem digits_of_execLdBcd (h : exec (.ldBcd x) s = .next t) :
    (readByte (effAddr 0 s) t).toNat = (reg x s).toNat / 100 ∧
      (readByte (effAddr 1 s) t).toNat = (reg x s).toNat / 10 % 10 ∧
      (readByte (effAddr 2 s) t).toNat = (reg x s).toNat % 10 := by
  obtain ⟨-, rfl⟩ := unlessFault_next.1 h
  have digit {k : Nat} (hk : k < 3) :
      readByte (effAddr k s) (advance (storeBytes (effAddr 0 s) (bcdDigits (reg x s)) s)) = (bcdDigits (reg x s))[k] :=
    readByte_effAddr_storeBytes hk s
  rw [digit (k := 0) (by omega), digit (k := 1) (by omega), digit (k := 2) (by omega)]
  exact bcdDigits_toNat (reg x s)

/-- `I` after a store or a load of `V[0]` to `V[X]` (R144, R145). -/
theorem indexPlus_succ_toNat (i : Word) (n : Nat) : (indexPlus i (n + 1)).toNat = (i.toNat + n + 1) % 65536 :=
  indexPlus_toNat i (n + 1)

theorem index_of_execStoreRegs (h : exec (.storeRegs x) s = .next t) :
    t.index.toNat = (s.index.toNat + x.val + 1) % 65536 := by
  obtain ⟨-, rfl⟩ := unlessFault_next.1 h
  exact indexPlus_succ_toNat s.index x.val

/-- The bytes of `V[0]` to `V[X]`, counted by register (R144). -/
theorem byte_of_lt_regsUpTo {k : Nat} (hk : k < (regsUpTo x s).length) :
    ∃ r : Reg, r.val ≤ x.val ∧ Place.byte (effAddr 0 s + k) = .byte (effAddr r.val s) := by
  rw [regsUpTo_length] at hk
  exact ⟨⟨k, by omega⟩, by simp only; omega, rfl⟩

end

/-! ## The instructions -/

/-- Settles O31: the bytes and `I` are those of a completed FX55, the frame that of the store and of the write of `I`. -/
theorem storeRegistersWritesTheRange : Obligations.StoreRegistersWritesTheRange := by
  refine ⟨wordsDecodeTo_storeRegs, fun x s => checkedWrite_outcomes rfl fun h => ?_⟩
  refine ⟨fun r hr => readByte_of_execStoreRegs h hr, index_of_execStoreRegs h, rfl, ?_⟩
  exact changesOnly_trans (changesOnly_storeBytes _ _ s fun k hk => .inl (byte_of_lt_regsUpTo hk))
    (changesOnly_setIndex_advance _ _ (.inr (.inl rfl)) (.inr (.inr rfl)))

/-- Settles O32: the registers are the bytes read, by the rule of the load. -/
theorem loadRegistersReadsTheRange : Obligations.LoadRegistersReadsTheRange := by
  refine ⟨wordsDecodeTo_loadRegs, fun x s => checkedRead_outcomes rfl ⟨fun r hr => ?_, ?_, rfl, ?_⟩⟩
  · rw [reg_advance, reg_setIndex, reg_loadUpTo, if_pos hr]
  · exact indexPlus_succ_toNat s.index x.val
  · exact changesOnly_trans (changesOnly_loadUpTo x s fun r hr => .inl ⟨r, hr, rfl⟩)
      (changesOnly_setIndex_advance _ _ (.inr (.inl rfl)) (.inr (.inr rfl)))

/-- Settles O33: the load reads, at the same addresses, the bytes that the store left. -/
theorem storeThenLoadGivesTheRegistersBack : Obligations.StoreThenLoadGivesTheRegistersBack := by
  intro x s t u stored sameIndex sameBytes
  have sameAddr (k : Nat) : effAddr k u = effAddr k s := by rw [effAddr, effAddr, sameIndex]
  have inRange : effAddr x.val u ≤ 0xFFF := sameAddr x.val ▸ effAddr_le_of_execStoreRegs stored
  obtain ⟨w, loaded, regs, index, -⟩ := (loadRegistersReadsTheRange.2 x u).1 inRange
  refine ⟨w, loaded, fun r hr => ?_, index_of_execStoreRegs stored, index⟩
  calc reg r w = readByte (effAddr r.val u) u := regs r hr
    _ = readByte (effAddr r.val s) t := by rw [sameAddr, sameBytes]
    _ = reg r s := readByte_of_execStoreRegs stored hr

/-- Settles O27: the address fits in 16 bits. -/
theorem loadIndexTakesTheAddress : Obligations.LoadIndexTakesTheAddress :=
  ⟨wordsDecodeTo_ldIndex, fun nnn _ => completes_of_eq_setIndex rfl (zeroExtend_toNat nnn)⟩

/-- Settles O28: five times a byte fits in 16 bits. -/
theorem glyphAddressIsFiveTimesVx : Obligations.GlyphAddressIsFiveTimesVx :=
  ⟨wordsDecodeTo_ldGlyph, fun x s => completes_of_eq_setIndex rfl (glyphAddr_toNat (reg x s))⟩

/-- Settles O29: sum and flag are computed from the pre-state, and the flag is written last. -/
theorem addToIndexFlagsSumsPast0FFF : Obligations.AddToIndexFlagsSumsPast0FFF := by
  refine ⟨wordsDecodeTo_addIndex, fun x s => ⟨_, rfl, indexPlus_toNat s.index _, ?_, rfl, ?_⟩⟩
  · rw [reg_advance, reg_writeFlag, if_pos rfl, indexOverflow, flagByte_decide_toNat]
  · exact changesOnly_trans (changesOnly_setIndex _ s (.inl rfl))
      (changesOnly_writeFlag_advance _ _ (.inr (.inl rfl)) (.inr (.inr rfl)))

/-- Settles O30: the three bytes are the digits of `V[X]`, which weigh 100, 10 and 1. -/
theorem bcdStoresThreeDigits : Obligations.BcdStoresThreeDigits := by
  refine ⟨wordsDecodeTo_ldBcd, fun x s => checkedWrite_outcomes rfl fun h => ?_⟩
  obtain ⟨hundreds, tens, ones⟩ := digits_of_execLdBcd h
  have bound := (reg x s).isLt
  refine ⟨by omega, by omega, by omega, by omega, rfl, ?_⟩
  refine changesOnly_trans (changesOnly_storeBytes _ _ s fun k hk => ?_) (changesOnly_advance _ (.inr (.inr (.inr rfl))))
  obtain rfl | rfl | rfl : k = 0 ∨ k = 1 ∨ k = 2 := by rw [bcdDigits_length] at hk; omega
  · exact .inl rfl
  · exact .inr (.inl rfl)
  · exact .inr (.inr (.inl rfl))

end Sys2Proof.Machine
end

section
/-! PROOFS. Display instructions (45_display.md R150 to R154): DXYN is the drawn sprite behind its read check, so each
statement about it is `drawSprite_spec` told of the state after the draw; a redraw xors every sprite bit a second time. -/

namespace Sys2Proof.Machine

section
variable {x y : Reg} {n : Nibble} {s t : State}

/-! ## The read check and the collision flag -/

theorem checkSprite_none : checkSprite n s = none ↔ n.toNat = 0 ∨ effAddr (n.toNat - 1) s ≤ 0xFFF := by
  unfold checkSprite
  split_ifs with rows
  · rw [checkRead_none]; omega
  · simp only [true_iff]; omega

theorem checkSprite_some (rows : n.toNat > 0) (past : effAddr (n.toNat - 1) s > 0xFFF) :
    checkSprite n s = some (.memoryAddressOutOfRange .read (max (effAddr 0 s) 0x1000)) := by
  rw [checkSprite, if_pos rows, checkRead_some past]

theorem flagByte_eq_one {f : Bool} : flagByte f = 1 ↔ f = true := by cases f <;> decide

theorem flagByte_eq_zero {f : Bool} : flagByte f = 0 ↔ ¬ f = true := by cases f <;> decide

/-- VF after a flag write and the advance of `pc` (R85). -/
theorem reg_vf_writeFlag_advance {f : Bool} : reg vf (advance (writeFlag f s)) = flagByte f := reg_writeReg_advance

theorem reg_drawn_of_ne {q : Reg} {f : Bool} {d : Display} (hq : q ≠ vf) :
    reg q (advance (writeFlag f (showDisplay d s))) = reg q s := by
  rw [reg_advance, reg_writeFlag, if_neg hq, reg_showDisplay]

/-! ## Drawing the same sprite again -/

section
variable (sameX : reg x t = reg x s) (sameY : reg y t = reg y s)
  (sameBytes : ∀ r, readByte (effAddr r t) t = readByte (effAddr r s) s) (shown : t.display = (drawSprite x y n s).1)
include sameX sameY sameBytes shown

/-- The second draw of a sprite at the same place gives the framebuffer of before the first one (R151). -/
theorem drawSprite_again_display : (drawSprite x y n t).1 = s.display := by
  obtain ⟨hit, miss, -⟩ := drawSprite_spec x y n s
  obtain ⟨hit', miss', -⟩ := drawSprite_spec x y n t
  simp only [sameX, sameY, sameBytes, shown] at hit' miss'
  refine display_ext fun px py => ?_
  by_cases inside : ∃ r < n.toNat, ∃ c < 8, px = spriteColumn (reg x s) c ∧ py = spriteRow (reg y s) r
  · obtain ⟨r, hr, c, hc, rfl, rfl⟩ := inside
    rw [hit' r hr c hc, hit r hr c hc, Bool.xor_assoc, Bool.xor_self, Bool.xor_false]
  · have outside : ∀ r < n.toNat, ∀ c < 8, ¬(px = spriteColumn (reg x s) c ∧ py = spriteRow (reg y s) r) :=
      fun r hr c hc here => inside ⟨r, hr, c, hc, here⟩
    rw [miss' px py outside, miss px py outside]

/-- The second draw collides where a set bit met a dark pixel the first time (R153). -/
theorem drawSprite_again_collision :
    (drawSprite x y n t).2 = true ↔ ∃ r < n.toNat, ∃ c < 8, spriteBit (readByte (effAddr r s) s) c = true ∧
      pixelOf s.display (spriteColumn (reg x s) c) (spriteRow (reg y s) r) = false := by
  obtain ⟨hit, -, -⟩ := drawSprite_spec x y n s
  obtain ⟨-, -, collision⟩ := drawSprite_spec x y n t
  simp only [sameX, sameY, sameBytes, shown] at collision
  have lit {r c : Nat} (hr : r < n.toNat) (hc : c < 8) (lights : spriteBit (readByte (effAddr r s) s) c = true) :
      pixelOf (drawSprite x y n s).1 (spriteColumn (reg x s) c) (spriteRow (reg y s) r) = true ↔
        pixelOf s.display (spriteColumn (reg x s) c) (spriteRow (reg y s) r) = false := by
    rw [hit r hr c hc, lights, Bool.xor_true, Bool.not_eq_true']
  rw [collision]
  constructor
  · rintro ⟨r, hr, c, hc, lights, on⟩
    exact ⟨r, hr, c, hc, lights, (lit hr hc lights).1 on⟩
  · rintro ⟨r, hr, c, hc, lights, off⟩
    exact ⟨r, hr, c, hc, lights, (lit hr hc lights).2 off⟩

end

end

/-! ## The instructions -/

/-- Settles O36: pixels and collision are those of the drawn sprite, taken from the pre-state; the check decides between
completion and fault. -/
theorem drawSpriteXorsItsPixels : Obligations.DrawSpriteXorsItsPixels := by
  refine ⟨wordsDecodeTo_drw, fun x y n s => ⟨fun inRange => ?_, fun rows past => ?_⟩⟩
  · obtain ⟨hit, miss, collision⟩ := drawSprite_spec x y n s
    refine ⟨_, unlessFault_next.2 ⟨checkSprite_none.2 inRange, rfl⟩, hit, fun h => ?_, fun h => ?_, rfl, rfl, ?_⟩
    · rw [reg_vf_writeFlag_advance, flagByte_eq_one]
      exact collision.2 h
    · rw [reg_vf_writeFlag_advance, flagByte_eq_zero]
      exact fun drawn => h (collision.1 drawn)
    · refine changesOnly_trans (changesOnly_showDisplay _ s (.inr (.inr (.inl rfl))) fun px py kept => ?_)
        (changesOnly_writeFlag_advance _ _ (.inr (.inl rfl)) (.inr (.inr (.inr rfl))))
      refine miss px py fun r hr c hc ⟨hx, hy⟩ => kept (.inl ⟨r, hr, c, hc, ?_⟩)
      rw [hx, hy]; rfl
  · exact congrArg (unlessFault · _) (checkSprite_some rows past)

/-- Settles O37: with neither coordinate in VF, the second draw is the same sprite at the same place. -/
theorem drawingTwiceRestoresTheDisplay : Obligations.DrawingTwiceRestoresTheDisplay := by
  intro x y n s t hx hy h
  obtain ⟨check, rfl⟩ := unlessFault_next.1 h
  refine ⟨_, unlessFault_next.2 ⟨check, rfl⟩, ?_, ?_⟩
  · exact drawSprite_again_display (reg_drawn_of_ne hx) (reg_drawn_of_ne hy) (fun _ => rfl) rfl
  · rw [reg_vf_writeFlag_advance, flagByte_eq_one]
    exact drawSprite_again_collision (reg_drawn_of_ne hx) (reg_drawn_of_ne hy) (fun _ => rfl) rfl

/-- Settles O35: the blank framebuffer is shown, whatever stood before. -/
theorem clearDisplayClearsEveryPixel : Obligations.ClearDisplayClearsEveryPixel := by
  refine ⟨wordsDecodeTo_cls, fun s => ⟨_, rfl, pixelOf_blankDisplay, rfl, rfl, ?_⟩⟩
  exact changesOnly_trans
    (changesOnly_showDisplay _ s (.inr (.inl rfl)) fun px py kept => absurd (.inl ⟨px, py, rfl⟩) kept)
    (changesOnly_advance _ (.inr (.inr rfl)))

end Sys2Proof.Machine
end

section
/-! PROOFS. Timers and keys (46_timers_and_keys.md R160 to R165): the timer moves and the key wait, each one write before
`advance`; and the count-down, one induction over the cycles for both timers. -/

namespace Sys2Proof.Machine

/-! ## The timer moves -/

/-- Settles O38: FX07 is one register write, FX15 and FX18 one timer write each. -/
theorem timerInstructionsMoveOneByte : Obligations.TimerInstructionsMoveOneByte := by
  refine ⟨wordsDecodeTo_ldRegDelay, wordsDecodeTo_ldDelayReg, wordsDecodeTo_ldSoundReg, fun x s => ⟨?_, ?_, ?_⟩⟩
  · exact completes_of_eq_writeReg (· = s.delayTimer) rfl rfl
  · exact ⟨_, rfl, rfl, rfl, changesOnly_trans (changesOnly_setDelay _ s (.inl rfl)) (changesOnly_advance _ (.inr rfl))⟩
  · exact ⟨_, rfl, rfl, rfl, changesOnly_trans (changesOnly_setSound _ s (.inl rfl)) (changesOnly_advance _ (.inr rfl))⟩

/-! ## The count-down -/

section
variable {s t : State} {op : Word} {x : Reg}

/-- The timer an FX15 loads ticks in the same cycle (R164). -/
theorem step_ldDelayReg_delayTimer (fetched : fetch s = .ok op) (decoded : decodeWord op = .ok (.ldDelayReg x))
    (h : step s = .next t) : t.delayTimer.toNat = (reg x s).toNat - 1 := by
  have ticked := (timersTickOncePerCompletedCycle s t op fetched h).1
  rw [decoded] at ticked
  exact ticked

/-- The timer an FX18 loads ticks in the same cycle (R164). -/
theorem step_ldSoundReg_soundTimer (fetched : fetch s = .ok op) (decoded : decodeWord op = .ok (.ldSoundReg x))
    (h : step s = .next t) : t.soundTimer.toNat = (reg x s).toNat - 1 := by
  have ticked := (timersTickOncePerCompletedCycle s t op fetched h).2
  rw [decoded] at ticked
  exact ticked

/-- FX07 reads the timer before the tick of its own cycle (R160). -/
theorem step_ldRegDelay (fetched : fetch s = .ok op) (decoded : decodeWord op = .ok (.ldRegDelay x)) :
    ∃ t, step s = .next t ∧ reg x t = s.delayTimer :=
  ⟨_, step_of_decoded fetched decoded, reg_writeReg_advance⟩

/-- A completed cycle in which `avoided` is not executed ends with the tick of a state that holds the same at `place`,
if no other instruction may write it. -/
theorem step_ticks_of_not_executed {avoided : Instr → Prop} {place : Place}
    (h : step s = .next t) (others : ∀ op i, fetch s = .ok op → decodeWord op = .ok i → ¬ avoided i)
    (frame : ∀ i, ¬ avoided i → ¬ mayWrite i place) (notPc : place ≠ .pc) : ∃ u, t = tick u ∧ sameAt place s u := by
  obtain ⟨op, fetched, ⟨i, u, decoded, hu, rfl⟩ | ⟨e, -, rfl⟩⟩ := step_next_cases h
  · exact ⟨u, rfl, exec_changesOnly hu place (frame i (others op i fetched decoded))⟩
  · exact ⟨advance s, rfl, changesOnly_advance (w := (· = .pc)) s rfl place notPc⟩

theorem step_delayTimer_of_no_load (h : step s = .next t)
    (others : ∀ op i, fetch s = .ok op → decodeWord op = .ok i → ¬ ∃ z, i = .ldDelayReg z) :
    t.delayTimer.toNat = s.delayTimer.toNat - 1 := by
  obtain ⟨u, rfl, (same : u.delayTimer = s.delayTimer)⟩ :=
    step_ticks_of_not_executed (place := .delayTimer) h others (fun _ => id) nofun
  rw [tick_delayTimer, countDown_toNat, same]

theorem step_soundTimer_of_no_load (h : step s = .next t)
    (others : ∀ op i, fetch s = .ok op → decodeWord op = .ok i → ¬ ∃ z, i = .ldSoundReg z) :
    t.soundTimer.toNat = s.soundTimer.toNat - 1 := by
  obtain ⟨u, rfl, (same : u.soundTimer = s.soundTimer)⟩ :=
    step_ticks_of_not_executed (place := .soundTimer) h others (fun _ => id) nofun
  rw [tick_soundTimer, countDown_toNat, same]

/-- What every cycle without `avoided` counts down by one, `k` such cycles count down by `k` (R86, R164). -/
theorem counted_down_of_cyclesWithout {avoided : Instr → Prop} {timer : State → Byte}
    (counts : ∀ {s t}, step s = .next t → (∀ op i, fetch s = .ok op → decodeWord op = .ok i → ¬ avoided i) →
      (timer t).toNat = (timer s).toNat - 1) {k : Nat} (h : CyclesWithout avoided k s t) :
    (timer t).toNat = (timer s).toNat - k := by
  induction k generalizing t with
  | zero =>
    obtain rfl : t = s := h
    rfl
  | succ k ih =>
    obtain ⟨u, before, last, others⟩ := h
    rw [counts last others, ih before, Nat.sub_sub]

end

/-- Settles O39: the loading cycle ticks once, each later cycle once more, and FX07 reads before its own tick. -/
theorem loadedTimersCountDownCycleByCycle : Obligations.LoadedTimersCountDownCycleByCycle := by
  intro x y s a op fetched h
  refine ⟨fun decoded => ?_, fun decoded => ?_⟩
  · have loaded := step_ldSoundReg_soundTimer fetched decoded h
    refine ⟨loaded, fun k u cycles => ?_⟩
    have counted := counted_down_of_cyclesWithout (timer := State.soundTimer) step_soundTimer_of_no_load cycles
    rw [soundActive_iff, counted, loaded]
    omega
  · have loaded := step_ldDelayReg_delayTimer fetched decoded h
    refine ⟨loaded, fun k u op' cycles fetched' decoded' => ?_⟩
    have counted := counted_down_of_cyclesWithout (timer := State.delayTimer) step_delayTimer_of_no_load cycles
    obtain ⟨w, completes, read⟩ := step_ldRegDelay fetched' decoded'
    refine ⟨w, completes, ?_⟩
    rw [read, counted, loaded]
    omega

/-! ## The key wait -/

section
variable {s : State} {x : Reg}

/-- A pressed key with no pressed key below it is the lowest one; the converse is `lowestKey_some`. -/
theorem lowestKey_of_least {k : Key} (down : keyDown k s = true) (least : ∀ j < k, keyDown j s = false) :
    lowestKey s = some k := by
  cases h : lowestKey s with
  | none => exact absurd (lowestKey_none.1 h k) (ne_false_of_eq_true down)
  | some j =>
    obtain ⟨down', least'⟩ := lowestKey_some h
    have le : k ≤ j := not_lt.1 fun lt => absurd (least j lt) (ne_false_of_eq_true down')
    have ge : j ≤ k := not_lt.1 fun lt => absurd (least' k lt) (ne_false_of_eq_true down)
    rw [le_antisymm ge le]

theorem exec_ldRegKey_of_lowest {k : Key} (lowest : lowestKey s = some k) :
    exec (.ldRegKey x) s = .next (advance (writeReg x (BitVec.ofNat 8 k.val) s)) :=
  execLdRegKey_next.2 (.inl ⟨k, lowest, rfl⟩)

theorem exec_ldRegKey_of_none (noKey : ∀ k, keyDown k s = false) : exec (.ldRegKey x) s = .next s :=
  execLdRegKey_next.2 (.inr ⟨lowestKey_none.2 noKey, rfl⟩)

/-- A key index fits the byte it is written as (R163). -/
theorem keyByte_toNat (k : Key) : (BitVec.ofNat 8 k.val).toNat = k.val := by
  rw [BitVec.toNat_ofNat]
  omega

/-- The waiting cycle only ticks, and tells the host that it waits (R163, R174). -/
theorem cycle_ldRegKey_of_none (noKey : ∀ k, keyDown k s = false) (fetched : fetch s = .ok (encode (.ldRegKey x))) :
    cycle s = .ok (tick s, .waitKey) := by
  have decoded := decodeWord_encode (.ldRegKey x)
  have completes : step s = .next (tick s) :=
    (step_of_decoded fetched decoded).trans (congrArg thenTick (exec_ldRegKey_of_none noKey))
  rw [cycle_of_next completes, completionReport_of_decoded fetched decoded, if_pos (waiting_iff.2 ⟨⟨x, rfl⟩, noKey⟩)]

end

/-- Settles O40: a least pressed key is the one written; with none pressed the state stays, and only the tick follows. -/
theorem keyWaitTakesTheLowestPressedKey : Obligations.KeyWaitTakesTheLowestPressedKey := by
  refine ⟨wordsDecodeTo_ldRegKey, fun x s => ⟨fun k down least => ?_, fun noKey => ?_⟩⟩
  · have lowest := lowestKey_of_least down least
    exact completes_of_eq_writeReg (·.toNat = k.val) (exec_ldRegKey_of_lowest lowest) (keyByte_toNat k)
  · exact ⟨exec_ldRegKey_of_none noKey, fun fetched => ⟨tick s, cycle_ldRegKey_of_none noKey fetched, rfl⟩⟩

end Sys2Proof.Machine
end

section
/-! PROOFS. Faults and the host's writes between cycles (60_exceptions.md R170 to R189): what a faulting cycle ran into,
that no key and no `draw_flag` decides a fault, and what a key write and `draw_ack` change. -/

namespace Sys2Proof.Machine

section
variable {s s' : State} {i : Instr} {x : Reg} {f : Fault} {r r' : Result} {w : Place → Prop}

/-! ## What a faulting cycle ran into -/

theorem thenTick_fault : thenTick r = .fault f ↔ r = .fault f := by
  cases r <;> simp [thenTick]

/-- A cycle faults in its fetch or in the execute step of the decoded instruction, and nowhere else (R171). -/
theorem step_fault : step s = .fault f ↔
    fetch s = .error f ∨ ∃ op i, fetch s = .ok op ∧ decodeWord op = .ok i ∧ exec i s = .fault f := by
  cases fetched : fetch s with
  | error g => simp [step_of_fetch_error fetched]
  | ok op =>
    cases decoded : decodeWord op with
    | ok i => simp [step_of_decoded fetched decoded, thenTick_fault, decoded]
    | error e => simp [step_of_unknown fetched decoded, decoded]

/-- A fault carries over to a state with the same fetch in which the same instructions fault. -/
theorem step_fault_congr (sameFetch : fetch s' = fetch s)
    (execFaults : ∀ i, exec i s = .fault f → exec i s' = .fault f) (h : step s = .fault f) : step s' = .fault f := by
  rw [step_fault, sameFetch]
  obtain fetched | ⟨op, i, fetched, decoded, faults⟩ := step_fault.1 h
  · exact .inl fetched
  · exact .inr ⟨op, i, fetched, decoded, execFaults i faults⟩

/-! ## What a fault does not depend on -/

/-- Of two results that agree outside some places, one faults as the other does. -/
theorem AgreeOutside.fault (agree : AgreeOutside w r r') (h : r = .fault f) : r' = .fault f := by
  subst h
  cases r' with
  | fault g => exact congrArg _ (Eq.symm agree)
  | next _ | refused _ => exact agree.elim

/-- The index in `V[X]` alone decides whether a skip on a key faults (R114, R115). -/
theorem skipOnKey_fault {wanted : Bool} :
    skipOnKey x wanted s = .fault f ↔ 15 < (reg x s).toNat ∧ f = .keyIndexOutOfRange (reg x s) := by
  by_cases inRange : (reg x s).toNat ≤ 15
  · simp [skipOnKey_of_le wanted inRange, Nat.not_lt.2 inRange]
  · have outside := Nat.not_le.1 inRange
    simp [skipOnKey_of_gt wanted outside, outside, eq_comm]

theorem exec_ldRegKey_ne_fault : exec (.ldRegKey x) s ≠ .fault f := by
  simp only [exec, execLdRegKey]
  split <;> nofun

/-- The keys decide no fault: of the three instructions that read a key, the two skips fault by their register and
FX0A does not fault. -/
theorem exec_fault_of_keys (same : ChangesOnly (fun p => ∃ k, p = .key k) s s') (faults : exec i s = .fault f) :
    exec i s' = .fault f := by
  by_cases reads : ∃ k, mayRead i (.key k)
  · have sameReg (x : Reg) : reg x s' = reg x s := same (.reg x) nofun
    obtain ⟨-, ⟨x, rfl⟩ | ⟨x, rfl⟩ | ⟨x, rfl⟩⟩ := reads
    · exact skipOnKey_fault.2 (sameReg x ▸ skipOnKey_fault.1 faults)
    · exact skipOnKey_fault.2 (sameReg x ▸ skipOnKey_fault.1 faults)
    · exact absurd faults exec_ldRegKey_ne_fault
  · refine (exec_agreeOutside same ?_).fault faults
    rintro _ ⟨k, rfl⟩ read
    exact reads ⟨k, read⟩

/-- No instruction reads `draw_flag`. -/
theorem exec_fault_of_drawFlag (same : ChangesOnly (fun p => p = .drawFlag) s s') (faults : exec i s = .fault f) :
    exec i s' = .fault f := by
  refine (exec_agreeOutside same ?_).fault faults
  rintro _ rfl
  exact id

end

/-- Settles O12: a fault leaves the pre-state, and neither the keys nor `draw_flag` decide a fetch or a fault. -/
theorem aFaultRepeatsUntilReset : Obligations.AFaultRepeatsUntilReset := by
  intro s f faults
  refine ⟨cycle_of_fault faults, fun k down => ?_, ?_⟩
  · exact step_fault_congr (fetch_writeKey k down s)
      (fun _ => exec_fault_of_keys (changesOnly_writeKey k down s ⟨k, rfl⟩)) faults
  · exact step_fault_congr (fetch_drawAck s) (fun _ => exec_fault_of_drawFlag (changesOnly_drawAck s rfl)) faults

/-- Settles O55, by the read of a written key and the frames of the two writes. -/
theorem hostWritesTouchOnlyTheirOwn : Obligations.HostWritesTouchOnlyTheirOwn := fun k down s =>
  ⟨(keyDown_writeKey k k down s).trans (if_pos rfl), changesOnly_writeKey k down s rfl, drawAck_drawFlag s,
    changesOnly_drawAck s rfl⟩

end Sys2Proof.Machine
end

section
/-! PROOFS. Reset, launch and reachable states (70_reset_and_hazards.md R200 to R221), and the spec's example words: the
invariant through every shared update, hence through an execute step, a cycle, a host move and any list of moves; what
the loader copies and the first cycle fetches; the jump to itself. -/

namespace Sys2Proof.Machine

/-! ## The invariant under the shared updates -/

section
variable {s t : State} {w : Word}

/-- The invariant speaks of memory, `pc`, `sp` and the entries only. -/
theorem stateInv_congr (inv : StateInv s) (memory : t.memory = s.memory) (pc : t.pc = s.pc) (sp : t.sp = s.sp)
    (stack : t.stack = s.stack) : StateInv t where
  memoryCanonical := memory ▸ inv.memoryCanonical
  memoryInProgramRegion := memory ▸ inv.memoryInProgramRegion
  pcBound := pc ▸ inv.pcBound
  stackBound := by
    rw [sp, stack]
    exact inv.stackBound

theorem stateInv_setIndex (w : Word) (inv : StateInv s) : StateInv (setIndex w s) :=
  stateInv_congr inv rfl rfl rfl rfl

theorem stateInv_tick (inv : StateInv s) : StateInv (tick s) := stateInv_congr inv rfl rfl rfl rfl

theorem stateInv_setPc (inv : StateInv s) (bound : w.toNat ≤ 0x10FE) : StateInv (setPc w s) where
  memoryCanonical := inv.memoryCanonical
  memoryInProgramRegion := inv.memoryInProgramRegion
  pcBound := bound
  stackBound := inv.stackBound

/-- No step past a fetchable address wraps or leaves the bound on `pc` (R220). -/
theorem pc_add_toNat_le (fetchable : s.pc.toNat ≤ 0x0FFE) {n : Nat} (small : n ≤ 4) :
    (s.pc + BitVec.ofNat 16 n).toNat ≤ 0x0FFE + n := by
  rw [BitVec.toNat_add, BitVec.toNat_ofNat]
  omega

theorem stateInv_advance (inv : StateInv s) (fetchable : s.pc.toNat ≤ 0x0FFE) : StateInv (advance s) :=
  stateInv_setPc inv ((pc_add_toNat_le fetchable (n := 2) (by decide)).trans (by decide))

theorem stateInv_skipIf (c : Bool) (inv : StateInv s) (fetchable : s.pc.toNat ≤ 0x0FFE) : StateInv (skipIf c s) := by
  cases c with
  | false => exact stateInv_advance inv fetchable
  | true => exact stateInv_setPc inv ((pc_add_toNat_le fetchable (n := 4) (by decide)).trans (by decide))

theorem stateInv_storeBytes {a : Nat} {bytes : List Byte} (inv : StateInv s) (lo : 0x200 ≤ a)
    (hi : a + bytes.length ≤ 0x1000) : StateInv (storeBytes a bytes s) where
  memoryCanonical := memWriteBytes_wf a bytes inv.memoryCanonical
  memoryInProgramRegion := memWriteBytes_inProgramRegion a bytes inv.memoryInProgramRegion lo hi
  pcBound := inv.pcBound
  stackBound := inv.stackBound

/-- The check before a store is what keeps the program region (R48). -/
theorem stateInv_checkedStore {a n : Nat} {bytes : List Byte} (inv : StateInv s)
    (checked : checkWrite a (a + n) = none) (fits : bytes.length = n + 1) : StateInv (storeBytes a bytes s) := by
  obtain ⟨lo, hi⟩ := checkWrite_none.1 checked
  exact stateInv_storeBytes inv lo (by omega)

/-- A pushed address is within the bound of the entries, and the entries below it are the old ones. -/
theorem stateInv_push (inv : StateInv s) (pushed : push w s = some t) (bound : w.toNat ≤ 0x1000) : StateInv t := by
  obtain ⟨room, rfl⟩ := push_some.1 pushed
  refine ⟨inv.memoryCanonical, inv.memoryInProgramRegion, inv.pcBound, fun k used => ?_⟩
  simp only [Fin.getElem_fin, Vector.getElem_set]
  split
  next => exact bound
  next below => exact inv.stackBound k (by simp only at used; omega)

theorem stateInv_pop (inv : StateInv s) (popped : pop s = some (w, t)) : StateInv t := by
  obtain ⟨used, -, rfl⟩ := pop_some.1 popped
  refine ⟨inv.memoryCanonical, inv.memoryInProgramRegion, inv.pcBound, fun k below => ?_⟩
  exact inv.stackBound k (by simp only at below; omega)

/-- A popped address was an entry in use. -/
theorem popped_toNat_le (inv : StateInv s) (popped : pop s = some (w, t)) : w.toNat ≤ 0x1000 := by
  obtain ⟨used, rfl, -⟩ := pop_some.1 popped
  have bound := s.sp.isLt
  exact inv.stackBound ⟨s.sp.val - 1, by omega⟩ (by simp only; omega)

/-! ## The invariant over a cycle -/

/-- An execute step keeps the invariant: control goes past the instruction, to a 12-bit target, to such a target plus a
byte, or to an entry in use, and every store is checked. -/
theorem stateInv_exec {i : Instr} (inv : StateInv s) (fetchable : s.pc.toNat ≤ 0x0FFE) (h : exec i s = .next t) :
    StateInv t := by
  have target (nnn : Addr) : (zeroExtend nnn).toNat ≤ 0x10FE := by
    rw [zeroExtend_toNat]; omega
  cases i with
  | ret =>
    obtain ⟨w, u, popped, rfl⟩ := execRet_next.1 h
    exact stateInv_setPc (stateInv_pop inv popped) ((popped_toNat_le inv popped).trans (by decide))
  | call nnn =>
    obtain ⟨u, pushed, rfl⟩ := execCall_next.1 h
    have pushedBound := pc_add_toNat_le fetchable (n := 2) (by decide)
    exact stateInv_setPc (stateInv_push inv pushed pushedBound) (target nnn)
  | jp nnn =>
    cases h
    exact stateInv_setPc inv (target nnn)
  | jpV0 nnn =>
    cases h
    exact stateInv_setPc inv (by rw [offsetTarget_toNat]; omega)
  | seByte _ _ | sneByte _ _ | seReg _ _ | sneReg _ _ =>
    cases h
    exact stateInv_skipIf _ inv fetchable
  | skp _ | sknp _ =>
    obtain ⟨_, rfl⟩ := skipOnKey_next.1 h
    exact stateInv_skipIf _ inv fetchable
  | cls | ldByte _ _ | addByte _ _ | ldReg _ _ | orReg _ _ | andReg _ _ | xorReg _ _ | addReg _ _ | subReg _ _
  | shrReg _ _ | subnReg _ _ | shlReg _ _ | rnd _ _ | ldIndex _ | addIndex _ | ldGlyph _ | ldRegDelay _
  | ldDelayReg _ | ldSoundReg _ =>
    cases h
    exact stateInv_advance (stateInv_congr inv rfl rfl rfl rfl) fetchable
  | ldRegKey _ =>
    obtain ⟨k, -, rfl⟩ | ⟨-, rfl⟩ := execLdRegKey_next.1 h
    · exact stateInv_advance (stateInv_congr inv rfl rfl rfl rfl) fetchable
    · exact inv
  | drw x y n =>
    obtain ⟨-, rfl⟩ := unlessFault_next.1 h
    exact stateInv_advance (stateInv_congr inv rfl rfl rfl rfl) fetchable
  | loadRegs x =>
    obtain ⟨-, rfl⟩ := unlessFault_next.1 h
    have loaded := stateInv_congr inv (loadUpTo_memory x s) (loadUpTo_pc x s) (loadUpTo_sp x s) (loadUpTo_stack x s)
    exact stateInv_advance (stateInv_setIndex _ loaded) (by rwa [setIndex_pc, loadUpTo_pc])
  | ldBcd x =>
    obtain ⟨checked, rfl⟩ := unlessFault_next.1 h
    exact stateInv_advance (stateInv_checkedStore inv checked (bcdDigits_length _)) fetchable
  | storeRegs x =>
    obtain ⟨checked, rfl⟩ := unlessFault_next.1 h
    have stored := stateInv_checkedStore inv checked (regsUpTo_length x s)
    exact stateInv_advance (stateInv_setIndex _ stored) fetchable

end

/-- Settles O46: the fetch bounds `pc`, then the execute step, or the skip of an unknown word, and the tick keep the
invariant. -/
theorem invariantIsKeptByEveryCycle : Obligations.InvariantIsKeptByEveryCycle := by
  intro s t inv h
  obtain ⟨op, fetched, run⟩ := step_next_cases h
  have fetchable := (fetch_ok.1 fetched).1
  obtain ⟨i, u, -, hu, rfl⟩ | ⟨e, -, rfl⟩ := run
  · exact stateInv_tick (stateInv_exec inv fetchable hu)
  · exact stateInv_tick (stateInv_advance inv fetchable)

/-! ## The loader -/

section
variable {bytes : List Byte}

theorem load_of_fits (fits : bytes.length ≤ 3584) (s : State) : load bytes s = (storeBytes 0x200 bytes s, .success) :=
  if_pos (decide_eq_true fits)

theorem load_of_too_long (long : bytes.length > 3584) (s : State) : load bytes s = (s, .romTooLarge) :=
  if_neg fun fits => Nat.not_le.2 long (of_decide_eq_true fits)

theorem launch_of_fits (fits : bytes.length ≤ 3584) (seed : Nat) :
    launch seed bytes = some (storeBytes 0x200 bytes (State.resetWith seed)) := by
  simp only [launch, load_of_fits fits]

/-- Byte `k` of a program loaded or launched stands at 0x200 + `k` (R203). -/
theorem readByte_storeBytes_0200 {k : Nat} (hk : k < bytes.length) (s : State) :
    readByte (0x200 + k) (storeBytes 0x200 bytes s) = bytes.getD k 0 := by
  rw [readByte_storeBytes, if_pos ⟨Nat.le_add_right .., Nat.add_lt_add_left hk _⟩, Nat.add_sub_cancel_left]

/-- 3584 bytes from 0x200 on end at 0xFFF, so a program the loader accepts stays in the program region. -/
theorem stateInv_loaded {s : State} (inv : StateInv s) (fits : bytes.length ≤ 3584) :
    StateInv (storeBytes 0x200 bytes s) := stateInv_storeBytes inv le_rfl (by omega)

theorem stateInv_load {s : State} (bytes : List Byte) (inv : StateInv s) : StateInv (load bytes s).1 := by
  rcases Nat.lt_or_ge 3584 bytes.length with long | fits
  · rwa [load_of_too_long long]
  · rw [load_of_fits fits]
    exact stateInv_loaded inv fits

end

/-- Settles O53: the accepted program is one block store at 0x200, with its reads and its frame. -/
theorem loaderCopiesTheProgram : Obligations.LoaderCopiesTheProgram := by
  refine fun bytes s => ⟨fun fits => ?_, fun long => load_of_too_long long s⟩
  rw [load_of_fits fits]
  exact ⟨rfl, fun k hk => readByte_storeBytes_0200 hk s, changesOnly_storeBytes _ _ s fun k hk => ⟨k, hk, rfl⟩⟩

/-! ## Host moves -/

theorem pc_resetWith_toNat (seed : Nat) : (State.resetWith seed).pc.toNat = 0x200 := rfl

/-- Settles O47: nothing is listed and no entry is in use. -/
theorem invariantHoldsAfterReset : Obligations.InvariantHoldsAfterReset := fun seed =>
  ⟨⟨List.Pairwise.nil, nofun⟩, nofun, (pc_resetWith_toNat seed).trans_le (by decide),
    fun _ used => absurd used (Nat.not_lt_zero _)⟩

section
variable {s t : State}

/-- The post-state of a cycle is that of `step`, or after a fault the pre-state (R172). -/
theorem step_or_eq_of_cycle {o : CycleOutcome} (h : cycle s = .ok (t, o)) : step s = .next t ∨ t = s := by
  cases run : step s with
  | next u =>
    cases (cycle_of_next run).symm.trans h
    exact .inl rfl
  | fault f =>
    cases (cycle_of_fault run).symm.trans h
    exact .inr rfl
  | refused r => exact absurd run (step_ne_refused s r)

theorem stateInv_cycle {o : CycleOutcome} (inv : StateInv s) (h : cycle s = .ok (t, o)) : StateInv t := by
  obtain completed | rfl := step_or_eq_of_cycle h
  · exact invariantIsKeptByEveryCycle s t inv completed
  · exact inv

theorem hostMoveAfterReset_step_of_cycle {o : CycleOutcome} (h : cycle s = .ok (t, o)) :
    hostMoveAfterReset .step s = .ok (t, .cycled o) := by
  simp only [hostMoveAfterReset, h]

/-- After a reset the machine answers every move; no cycle is refused. -/
theorem hostMoveAfterReset_answers (m : HostMove) (s : State) : ∃ t r, hostMoveAfterReset m s = .ok (t, r) := by
  cases m with
  | step =>
    obtain ⟨t, o, h, -⟩ := everyCycleHasOneOutcomeAndFaultsAreExact s
    exact ⟨t, .cycled o, hostMoveAfterReset_step_of_cycle h⟩
  | reset _ | load _ | writeKey _ _ | drawAck => exact ⟨_, _, rfl⟩

end

/-- Settles O48, move by move: a reset starts afresh, the loader and the cycle keep the invariant, and the two writes
touch none of its places. -/
theorem invariantIsKeptByEveryHostMove : Obligations.InvariantIsKeptByEveryHostMove := by
  intro m s t r inv h
  cases m with
  | reset seed =>
    cases h
    exact invariantHoldsAfterReset seed
  | load bytes =>
    cases h
    exact stateInv_load bytes inv
  | step =>
    obtain ⟨u, o, ran, -⟩ := everyCycleHasOneOutcomeAndFaultsAreExact s
    cases (hostMoveAfterReset_step_of_cycle ran).symm.trans h
    exact stateInv_cycle inv ran
  | writeKey _ _ | drawAck =>
    cases h
    exact stateInv_congr inv rfl rfl rfl rfl

/-- Any list of moves runs to its end, and the invariant holds there. -/
theorem hostMoves_keep_stateInv (moves : List HostMove) {s : State} (inv : StateInv s) :
    ∃ t, hostMoves moves (some s) = .ok (some t) ∧ StateInv t := by
  induction moves generalizing s with
  | nil => exact ⟨s, rfl, inv⟩
  | cons m rest ih =>
    obtain ⟨u, r, moved⟩ := hostMoveAfterReset_answers m s
    obtain ⟨t, ran, inv'⟩ := ih (invariantIsKeptByEveryHostMove m s u r inv moved)
    exact ⟨t, (hostMoves_cons (machine := some s) rest moved).trans ran, inv'⟩

/-- Settles O59: the reset gives the invariant, and the moves after it keep it. -/
theorem anyHostMovesAfterResetKeepTheInvariant : Obligations.AnyHostMovesAfterResetKeepTheInvariant := by
  intro seed moves
  obtain ⟨t, ran, inv⟩ := hostMoves_keep_stateInv moves (invariantHoldsAfterReset seed)
  exact ⟨t, (hostMoves_cons moves (hostMove_reset seed none)).trans ran, inv⟩

/-! ## The first cycle -/

/-- Settles O54: `pc` is the address of the loaded program's first byte. -/
theorem launchedProgramStartsWithItsFirstWord : Obligations.LaunchedProgramStartsWithItsFirstWord := by
  intro seed b0 b1 rest short
  have fits : (b0 :: b1 :: rest).length ≤ 3584 := by simp only [List.length_cons]; omega
  have first := readByte_storeBytes_0200 (bytes := b0 :: b1 :: rest) (k := 0) (by simp) (State.resetWith seed)
  have second := readByte_storeBytes_0200 (bytes := b0 :: b1 :: rest) (k := 1) (by simp) (State.resetWith seed)
  refine ⟨_, wordOfBytes b0 b1, launch_of_fits fits seed, rfl,
    fetch_ok.2 ⟨(pc_resetWith_toNat seed).trans_le (by decide), ?_⟩, wordOfBytes_toNat b0 b1,
    stateInv_loaded (invariantHoldsAfterReset seed) fits⟩
  exact (congrArg₂ wordOfBytes first second).symm

/-- With nothing loaded the first word is zero: both its bytes lie above the font (R202). -/
theorem fetch_resetWith (seed : Nat) : fetch (State.resetWith seed) = .ok 0x0000 := by
  refine fetch_ok.2 ⟨(pc_resetWith_toNat seed).trans_le (by decide), ?_⟩
  rw [readByte_resetWith, readByte_resetWith, pc_resetWith_toNat, resetByte_above_font (by decide),
    resetByte_above_font (by decide)]
  rfl

theorem decodeWord_0000 : decodeWord 0x0000 = .error (.unknownOpcode 0x0000) :=
  (unknownWordsAreExactlyThese 0x0000 _).2 ⟨rfl, by decide⟩

/-- Settles O52: the zero word is unknown, so the cycle is its skip and its report. -/
theorem emptyMachineSkipsTheZeroWord : Obligations.EmptyMachineSkipsTheZeroWord := by
  intro seed
  have fetched := fetch_resetWith seed
  have completes := step_of_unknown fetched decodeWord_0000
  refine ⟨_, completes, ?_, rfl⟩
  rw [cycle_of_next completes, completionReport_of_unknown fetched decodeWord_0000]

/-! ## The end of a run -/

section
variable {s : State}

/-- The word of a terminal state is the jump to its own address. -/
theorem fetch_of_terminal (terminal : Terminal s) : fetch s = .ok (encode (.jp (BitVec.ofNat 12 s.pc.toNat))) := by
  obtain ⟨fetchable, fetched⟩ := terminal
  rw [fetched, encode, encodeNNN, BitVec.toNat_ofNat, Nat.mod_eq_of_lt (by omega)]

theorem zeroExtend_ofNat_pc (fetchable : s.pc.toNat ≤ 0x0FFE) : zeroExtend (BitVec.ofNat 12 s.pc.toNat) = s.pc := by
  apply BitVec.eq_of_toNat_eq
  rw [zeroExtend_toNat, BitVec.toNat_ofNat]
  omega

/-- A jump to its own address leaves the state as it is (R101). -/
theorem exec_jp_self {nnn : Addr} (self : zeroExtend nnn = s.pc) : exec (.jp nnn) s = .next s :=
  congrArg (fun w => Host.Outcome.next (setPc w s)) self

/-- The cycle of a terminal state is its tick (R219). -/
theorem step_of_terminal (terminal : Terminal s) : step s = .next (tick s) := by
  have fetchable := terminal.1
  rw [step_of_decoded (fetch_of_terminal terminal) (decodeWord_encode _), exec_jp_self (zeroExtend_ofNat_pc fetchable)]
  rfl

/-- It reports OK: a jump does not wait. -/
theorem completionReport_of_terminal (terminal : Terminal s) : completionReport s = .ok := by
  rw [completionReport_of_decoded (fetch_of_terminal terminal) (decodeWord_encode _)]
  exact if_neg nofun

end

/-- Settles O50: the cycle is a tick, which moves neither `pc` nor the word there. -/
theorem terminalStateOnlyCountsDown : Obligations.TerminalStateOnlyCountsDown := by
  intro s terminal
  have completes := step_of_terminal terminal
  refine ⟨tick s, completes, ?_, terminal, countDown_toNat _, countDown_toNat _,
    changesOnly_tick s (.inl rfl) (.inr rfl)⟩
  rw [cycle_of_next completes, completionReport_of_terminal terminal]

/-! ## The spec's example words -/

/-- Settles O2: each accepted word is the encoder's word of its instruction, and the others are rejected words. -/
theorem specWordsDecodeToTheirInstructions : Obligations.SpecWordsDecodeToTheirInstructions :=
  ⟨decodeWord_encode .cls, decodeWord_encode (.call 0x20A), decodeWord_encode (.seReg 3 4), decodeWord_encode (.sknp 5),
    decodeWord_encode (.addByte 3 0x01), decodeWord_encode (.subReg 0 1), decodeWord_encode (.storeRegs 3),
    decodeWord_encode (.drw 0 1 2), decodeWord_encode (.ldSoundReg 2),
    (unknownWordsAreExactlyThese 0x5001 _).2 ⟨rfl, by decide⟩,
    (unknownWordsAreExactlyThese 0x01E0 _).2 ⟨rfl, by decide⟩,
    (unknownWordsAreExactlyThese 0x8238 _).2 ⟨rfl, by decide⟩⟩

end Sys2Proof.Machine
end
